-- ==== Sys2Proof/Word.lean ====
section
/-!
DEFINITION. The word types of the gchip-8 CORE (spec/00_scope.md R7, R9). Every value is an unsigned
integer of a fixed width; addition and subtraction of `BitVec` are the spec's `+8`, `-8`, `+16`,
`-16` (R10).
-/

namespace Sys2Proof

/-- A byte of memory, a general register, a timer (R7, `REG_W` = 8). -/
abbrev Byte := BitVec 8

/-- A 16-bit value: the opcode, `I`, `pc`, a stack slot (R7, `I_W`; R8, `PC_W`, `STACK_W`). -/
abbrev Word := BitVec 16

/-- A 4-bit field of an opcode (R9). -/
abbrev Nibble := BitVec 4

/-- The 12-bit address immediate `nnn` (spec/30_encoding.md R93). -/
abbrev Addr := BitVec 12

/-- The number of a general register, 0 to 15 (spec/10_state.md R21). -/
abbrev Reg := Fin 16

/-- VF, the flag register, is `V[15]` (spec/10_state.md R22). -/
abbrev VF : Reg := 15

/-- The 64 by 32 frame buffer: 2048 one-bit cells, cell `k` is bit `k`, 1 is on
(spec/10_state.md R30). -/
abbrev FrameBuffer := BitVec 2048

end Sys2Proof
end

