-- ==== Sys2Proof/Config.lean ====
section
/-!
DEFINITION. What an implementation fixes (spec/00_scope.md R7, R8) and the values the spec leaves
free. The parameters of R8 are a record, `Params`: the spec calls them arguments of the model, and
since `step` takes a state only, a state carries them (log 2). The free values are constants without
a body: nothing can be proved of what they are.
-/

namespace Sys2Proof

/-- `DRAW_MODE` (R8): how a sprite that crosses an edge is placed (spec/44_display.md R210, R213). -/
inductive DrawMode where
  /-- Each pixel's column is reduced modulo 64 and its row modulo 32 (the default, R210). -/
  | wrapPixel
  /-- Only the sprite's origin is reduced; indices of 2048 and above are skipped (R213). -/
  | wrapOrigin
  deriving DecidableEq, Repr

namespace Config

/-- `MEM_SIZE`: bytes of memory (R7). -/
abbrev memSize : Nat := 4096

/-- `PROG_BASE`: the address a program is loaded at; below it the reserved region (R7). -/
abbrev progBase : Nat := 0x200

/-- `MAX_PROG_LEN` = `MEM_SIZE - PROG_BASE` (R8). -/
abbrev maxProgLen : Nat := 3584

/-- `FONT_LEN`: bytes of the glyph table (R7). -/
abbrev fontLen : Nat := 80

/-- `GLYPH_H`: bytes of one glyph (R7). -/
abbrev glyphHeight : Nat := 5

/-- `FB_W`: columns of the frame buffer (R7). -/
abbrev fbWidth : Nat := 64

/-- `FB_H`: rows of the frame buffer (R7). -/
abbrev fbHeight : Nat := 32

/-- `FB_CELLS` = `FB_W * FB_H` (R7). -/
abbrev fbCells : Nat := 2048

/-- The parameters the document leaves open (R8). `OOR_POLICY` and `KEY_OOR_POLICY` have the one
value `fault` and so no field. -/
structure Params where
  /-- `FONT_BASE`; `FONT_BASE + 80 <= 0x200`, so 0 to 432. -/
  fontBase : Fin 433
  /-- `FONT_GLYPHS`, the 80 bytes of the glyph table (spec/70_reset_and_hazards.md R291). -/
  glyphs : Vector Byte 80
  /-- `DRAW_MODE`. -/
  drawMode : DrawMode
  /-- `LENIENT_59`: `5xyN`, `9xyN` with `N != 0` are the skips and not undefined
  (spec/30_encoding.md R97). -/
  lenient59 : Bool
  /-- `STRICT_GROUP0`: `0kE0`, `0kEE` with `k != 0` are undefined and not `CLS`, `RET` (R96). -/
  strictGroup0 : Bool
  deriving DecidableEq, Repr

/-- The value of `FONT_BASE` in the machine of this row: the spec leaves it OPEN (decision D8), so it
has no body. Log 2. -/
opaque fontBase : Fin 433

/-- The key inputs of the `n`-th cycle for which the state lists no inputs: any 16 Booleans
(spec/10_state.md R34). Log 1. -/
opaque freeKeys : Nat → Vector Bool 16

/-- The random byte of the `n`-th cycle for which the state lists no inputs: "a free 8-bit value,
under no law" (spec/10_state.md R35). Log 1. -/
opaque freeRnd : Nat → Byte

/-- What memory holds after a program was refused as too long, as cells written over the reset
contents: "nothing may be assumed of it" (spec/70_reset_and_hazards.md R293, U17). Log 17. -/
opaque loadErrorCells : List Byte → List (Nat × Byte)

end Config

end Sys2Proof
end

