-- ==== Sys2Proof/Machine/Defaults.lean ====
section
/-!
DEFINITION. The parameters of the machine this row models: the spec's defaults (spec/00_scope.md R8),
with `FONT_BASE` left open. Logs 2, 3, 13 and 14.
-/

namespace Sys2Proof.Machine

/-- Glyphs 0 to 7 of the default `FONT_GLYPHS` (spec/70_reset_and_hazards.md R291, D9). PRESUMED
(the spec marks the table as general knowledge), log 3. -/
def glyphsLow : List Byte := [
  0xF0, 0x90, 0x90, 0x90, 0xF0,
  0x20, 0x60, 0x20, 0x20, 0x70,
  0xF0, 0x10, 0xF0, 0x80, 0xF0,
  0xF0, 0x10, 0xF0, 0x10, 0xF0,
  0x90, 0x90, 0xF0, 0x10, 0x10,
  0xF0, 0x80, 0xF0, 0x10, 0xF0,
  0xF0, 0x80, 0xF0, 0x90, 0xF0,
  0xF0, 0x10, 0x20, 0x40, 0x40]

/-- Glyphs 8 to F of the default `FONT_GLYPHS` (R291, D9). PRESUMED, log 3. -/
def glyphsHigh : List Byte := [
  0xF0, 0x90, 0xF0, 0x90, 0xF0,
  0xF0, 0x90, 0xF0, 0x10, 0xF0,
  0xF0, 0x90, 0xF0, 0x90, 0x90,
  0xE0, 0x90, 0xE0, 0x90, 0xE0,
  0xF0, 0x80, 0x80, 0x80, 0xF0,
  0xE0, 0x90, 0x90, 0x90, 0xE0,
  0xF0, 0x80, 0xF0, 0x80, 0xF0,
  0xF0, 0x80, 0xF0, 0x80, 0x80]

/-- The default `FONT_GLYPHS`: 16 glyphs of 5 bytes (R291). -/
def defaultGlyphs : Vector Byte 80 :=
  Vector.ofFn fun k => (glyphsLow ++ glyphsHigh).getD k.val 0

/-- The parameters the machine has at reset: `FONT_BASE` uninterpreted (D8), the default glyphs (D9),
`DRAW_MODE = wrap_pixel` (D11), `LENIENT_59` and `STRICT_GROUP0` false (D15). -/
def defaultParams : Config.Params :=
  { fontBase := Config.fontBase
    glyphs := defaultGlyphs
    drawMode := .wrapPixel
    lenient59 := false
    strictGroup0 := false }

end Sys2Proof.Machine
end

