-- ==== Sys2Proof/Syntax.lean ====
section
/-!
DEFINITION. The instructions: one constructor per row of spec/opcode_table.json, in the table's order
(spec/30_encoding.md R92, R95), with the operand fields of the row. A field the hardware ignores is
kept (R96, R98, and the low nibble of groups 5 and 9 under `LENIENT_59`, R97), so that a word and its
instruction determine each other.
-/

namespace Sys2Proof

inductive Instr where
  /-- `0kE0` CLS; `k` is ignored. -/
  | cls (k : Nibble)
  /-- `0kEE` RET; `k` is ignored. -/
  | ret (k : Nibble)
  /-- `1nnn` JP nnn. -/
  | jp (nnn : Addr)
  /-- `2nnn` CALL nnn. -/
  | call (nnn : Addr)
  /-- `3xnn` SE Vx, nn. -/
  | seImm (x : Reg) (nn : Byte)
  /-- `4xnn` SNE Vx, nn. -/
  | sneImm (x : Reg) (nn : Byte)
  /-- `5xy0` SE Vx, Vy; `low` is the low nibble, 0 unless `LENIENT_59`. -/
  | seReg (x y : Reg) (low : Nibble)
  /-- `6xnn` LD Vx, nn. -/
  | ldImm (x : Reg) (nn : Byte)
  /-- `7xnn` ADD Vx, nn. -/
  | addImm (x : Reg) (nn : Byte)
  /-- `8xy0` LD Vx, Vy. -/
  | ldReg (x y : Reg)
  /-- `8xy1` OR Vx, Vy. -/
  | orReg (x y : Reg)
  /-- `8xy2` AND Vx, Vy. -/
  | andReg (x y : Reg)
  /-- `8xy3` XOR Vx, Vy. -/
  | xorReg (x y : Reg)
  /-- `8xy4` ADD Vx, Vy. -/
  | addReg (x y : Reg)
  /-- `8xy5` SUB Vx, Vy. -/
  | subReg (x y : Reg)
  /-- `8xy6` SHR Vx; `y` is ignored. -/
  | shr (x y : Reg)
  /-- `8xy7` SUBN Vx, Vy. -/
  | subnReg (x y : Reg)
  /-- `8xyE` SHL Vx; `y` is ignored. -/
  | shl (x y : Reg)
  /-- `9xy0` SNE Vx, Vy; `low` is the low nibble, 0 unless `LENIENT_59`. -/
  | sneReg (x y : Reg) (low : Nibble)
  /-- `Annn` LD I, nnn. -/
  | ldI (nnn : Addr)
  /-- `Bnnn` JP V0, nnn. -/
  | jpV0 (nnn : Addr)
  /-- `Cxnn` RND Vx, nn. -/
  | rnd (x : Reg) (nn : Byte)
  /-- `Dxyn` DRW Vx, Vy, n. -/
  | drw (x y : Reg) (n : Nibble)
  /-- `Ex9E` SKP Vx. -/
  | skp (x : Reg)
  /-- `ExA1` SKNP Vx. -/
  | sknp (x : Reg)
  /-- `Fx07` LD Vx, DT. -/
  | ldVxDt (x : Reg)
  /-- `Fx0A` LD Vx, K. -/
  | ldVxK (x : Reg)
  /-- `Fx15` LD DT, Vx. -/
  | ldDtVx (x : Reg)
  /-- `Fx18` LD ST, Vx. -/
  | ldStVx (x : Reg)
  /-- `Fx1E` ADD I, Vx. -/
  | addIVx (x : Reg)
  /-- `Fx29` LD F, Vx. -/
  | ldFVx (x : Reg)
  /-- `Fx33` LD B, Vx. -/
  | ldBVx (x : Reg)
  /-- `Fx55` LD [I], Vx; `x` is a count. -/
  | storeRegs (x : Reg)
  /-- `Fx65` LD Vx, [I]; `x` is a count. -/
  | loadRegs (x : Reg)
  /-- Any other value: the explicit no-op entry (R99, R100). It keeps the whole opcode. -/
  | nopUndef (op : Word)
  deriving DecidableEq, Repr

end Sys2Proof
end

