-- ==== Sys2Proof/WellFormed.lean ====
section
/-!
DEFINITION. When an instruction is well formed. Every operand field has exactly the width of its bits
in the word (spec/30_encoding.md R91, R93), so what is left to check is: the no-op entry holds a value
that matches no row of R95 (R99), the ignored nibble of group 0 is 0 under `STRICT_GROUP0` (R96), and
the low nibble of groups 5 and 9 is 0 unless `LENIENT_59` (R97).
-/

namespace Sys2Proof

/-- A row of the opcode map (R95): the value `op` is the row's instruction exactly when
`op and mask = pattern`. -/
structure OpcodeRow where
  pattern : Word
  mask : Word
  deriving DecidableEq, Repr

/-- Rows `00E0` to `5xy0` (R95; masks of groups 0 and 5 by R96, R97). -/
def controlRows (p : Config.Params) : List OpcodeRow := [
  { pattern := 0x00E0, mask := if p.strictGroup0 then 0xFFFF else 0xF0FF },
  { pattern := 0x00EE, mask := if p.strictGroup0 then 0xFFFF else 0xF0FF },
  { pattern := 0x1000, mask := 0xF000 },
  { pattern := 0x2000, mask := 0xF000 },
  { pattern := 0x3000, mask := 0xF000 },
  { pattern := 0x4000, mask := 0xF000 },
  { pattern := 0x5000, mask := if p.lenient59 then 0xF000 else 0xF00F }]

/-- Rows `6xnn` and `7xnn` (R95). -/
def immediateRows : List OpcodeRow := [
  { pattern := 0x6000, mask := 0xF000 },
  { pattern := 0x7000, mask := 0xF000 }]

/-- Rows `8xy0` to `8xyE` (R95). -/
def groupEightRows : List OpcodeRow := [
  { pattern := 0x8000, mask := 0xF00F },
  { pattern := 0x8001, mask := 0xF00F },
  { pattern := 0x8002, mask := 0xF00F },
  { pattern := 0x8003, mask := 0xF00F },
  { pattern := 0x8004, mask := 0xF00F },
  { pattern := 0x8005, mask := 0xF00F },
  { pattern := 0x8006, mask := 0xF00F },
  { pattern := 0x8007, mask := 0xF00F },
  { pattern := 0x800E, mask := 0xF00F }]

/-- Rows `9xy0` to `Dxyn` (R95; mask of group 9 by R97). -/
def middleRows (p : Config.Params) : List OpcodeRow := [
  { pattern := 0x9000, mask := if p.lenient59 then 0xF000 else 0xF00F },
  { pattern := 0xA000, mask := 0xF000 },
  { pattern := 0xB000, mask := 0xF000 },
  { pattern := 0xC000, mask := 0xF000 },
  { pattern := 0xD000, mask := 0xF000 }]

/-- Rows `Ex9E` to `Fx65` (R95). -/
def keyAndMiscRows : List OpcodeRow := [
  { pattern := 0xE09E, mask := 0xF0FF },
  { pattern := 0xE0A1, mask := 0xF0FF },
  { pattern := 0xF007, mask := 0xF0FF },
  { pattern := 0xF00A, mask := 0xF0FF },
  { pattern := 0xF015, mask := 0xF0FF },
  { pattern := 0xF018, mask := 0xF0FF },
  { pattern := 0xF01E, mask := 0xF0FF },
  { pattern := 0xF029, mask := 0xF0FF },
  { pattern := 0xF033, mask := 0xF0FF },
  { pattern := 0xF055, mask := 0xF0FF },
  { pattern := 0xF065, mask := 0xF0FF }]

/-- The 34 rows of R95, in the table's order. -/
def opcodeRows (p : Config.Params) : List OpcodeRow :=
  controlRows p ++ immediateRows ++ groupEightRows ++ middleRows p ++ keyAndMiscRows

/-- `op` is the instruction of row `r` (R95). -/
def OpcodeRow.hits (r : OpcodeRow) (op : Word) : Bool := op &&& r.mask == r.pattern

/-- `op` matches no row (R99). -/
def isUndefined (p : Config.Params) (op : Word) : Bool :=
  (opcodeRows p).all fun r => !r.hits op

namespace Instr

/-- The instruction's place in the opcode map, counted from 0; the no-op entry is the 35th (R100). -/
def rowNumber : Instr → Nat
  | .cls _ => 0
  | .ret _ => 1
  | .jp _ => 2
  | .call _ => 3
  | .seImm _ _ => 4
  | .sneImm _ _ => 5
  | .seReg _ _ _ => 6
  | .ldImm _ _ => 7
  | .addImm _ _ => 8
  | .ldReg _ _ => 9
  | .orReg _ _ => 10
  | .andReg _ _ => 11
  | .xorReg _ _ => 12
  | .addReg _ _ => 13
  | .subReg _ _ => 14
  | .shr _ _ => 15
  | .subnReg _ _ => 16
  | .shl _ _ => 17
  | .sneReg _ _ _ => 18
  | .ldI _ => 19
  | .jpV0 _ => 20
  | .rnd _ _ => 21
  | .drw _ _ _ => 22
  | .skp _ => 23
  | .sknp _ => 24
  | .ldVxDt _ => 25
  | .ldVxK _ => 26
  | .ldDtVx _ => 27
  | .ldStVx _ => 28
  | .addIVx _ => 29
  | .ldFVx _ => 30
  | .ldBVx _ => 31
  | .storeRegs _ => 32
  | .loadRegs _ => 33
  | .nopUndef _ => 34

/-- The fields hold only what the encoding admits (R96, R97, R99). -/
def wf (p : Config.Params) : Instr → Bool
  | .cls k => !p.strictGroup0 || k == 0
  | .ret k => !p.strictGroup0 || k == 0
  | .jp _ => true
  | .call _ => true
  | .seImm _ _ => true
  | .sneImm _ _ => true
  | .seReg _ _ low => p.lenient59 || low == 0
  | .ldImm _ _ => true
  | .addImm _ _ => true
  | .ldReg _ _ => true
  | .orReg _ _ => true
  | .andReg _ _ => true
  | .xorReg _ _ => true
  | .addReg _ _ => true
  | .subReg _ _ => true
  | .shr _ _ => true
  | .subnReg _ _ => true
  | .shl _ _ => true
  | .sneReg _ _ low => p.lenient59 || low == 0
  | .ldI _ => true
  | .jpV0 _ => true
  | .rnd _ _ => true
  | .drw _ _ _ => true
  | .skp _ => true
  | .sknp _ => true
  | .ldVxDt _ => true
  | .ldVxK _ => true
  | .ldDtVx _ => true
  | .ldStVx _ => true
  | .addIVx _ => true
  | .ldFVx _ => true
  | .ldBVx _ => true
  | .storeRegs _ => true
  | .loadRegs _ => true
  | .nopUndef op => isUndefined p op

end Instr

end Sys2Proof
end

