-- ==== Sys2Proof/Decode.lean ====
section
/-!
DEFINITION. The decoder, total and stateless (spec/30_encoding.md R90, R91, R94, R101), and after it
the encoder, written from the same map (R95). The decoder reads the parameters `STRICT_GROUP0` and
`LENIENT_59` (R96, R97) and nothing else.
-/

namespace Sys2Proof

/-- The field `g`, bits 15:12 (R91). -/
def fieldG (op : Word) : Nibble := op.extractLsb' 12 4

/-- Bits 11:8 as a nibble: the field `x`, or the bits group 0 ignores (R91, R96). -/
def fieldXBits (op : Word) : Nibble := op.extractLsb' 8 4

/-- The field `x`, bits 11:8, as a register number (R91). -/
def fieldX (op : Word) : Reg := (fieldXBits op).toFin

/-- The field `y`, bits 7:4, as a register number (R91). -/
def fieldY (op : Word) : Reg := (op.extractLsb' 4 4).toFin

/-- The field `n`, bits 3:0 (R91). -/
def fieldN (op : Word) : Nibble := op.extractLsb' 0 4

/-- The field `nn`, bits 7:0 (R91). -/
def fieldNN (op : Word) : Byte := op.extractLsb' 0 8

/-- The field `nnn`, bits 11:0 (R91). -/
def fieldNNN (op : Word) : Addr := op.extractLsb' 0 12

/-- Group 0: the low byte selects; bits 11:8 are ignored unless `STRICT_GROUP0` (R94, R96). -/
def decodeGroup0 (p : Config.Params) (op : Word) : Instr :=
  if p.strictGroup0 && fieldXBits op != 0 then .nopUndef op
  else match (fieldNN op).toNat with
    | 0xE0 => .cls (fieldXBits op)
    | 0xEE => .ret (fieldXBits op)
    | _ => .nopUndef op

/-- Group 8: the low nibble selects (R94). -/
def decodeGroup8 (op : Word) : Instr :=
  match (fieldN op).toNat with
  | 0x0 => .ldReg (fieldX op) (fieldY op)
  | 0x1 => .orReg (fieldX op) (fieldY op)
  | 0x2 => .andReg (fieldX op) (fieldY op)
  | 0x3 => .xorReg (fieldX op) (fieldY op)
  | 0x4 => .addReg (fieldX op) (fieldY op)
  | 0x5 => .subReg (fieldX op) (fieldY op)
  | 0x6 => .shr (fieldX op) (fieldY op)
  | 0x7 => .subnReg (fieldX op) (fieldY op)
  | 0xE => .shl (fieldX op) (fieldY op)
  | _ => .nopUndef op

/-- Group E: the low byte selects (R94). -/
def decodeGroupE (op : Word) : Instr :=
  match (fieldNN op).toNat with
  | 0x9E => .skp (fieldX op)
  | 0xA1 => .sknp (fieldX op)
  | _ => .nopUndef op

/-- Group F: the low byte selects (R94). -/
def decodeGroupF (op : Word) : Instr :=
  match (fieldNN op).toNat with
  | 0x07 => .ldVxDt (fieldX op)
  | 0x0A => .ldVxK (fieldX op)
  | 0x15 => .ldDtVx (fieldX op)
  | 0x18 => .ldStVx (fieldX op)
  | 0x1E => .addIVx (fieldX op)
  | 0x29 => .ldFVx (fieldX op)
  | 0x33 => .ldBVx (fieldX op)
  | 0x55 => .storeRegs (fieldX op)
  | 0x65 => .loadRegs (fieldX op)
  | _ => .nopUndef op

/-- The instruction of a 16-bit value: first the group, then in groups 0, 8, E and F the selector, in
groups 5 and 9 the low nibble 0 (R94, R97; spec/40_cycle_and_dispatch.md R124); every value that is
no instruction is the no-op entry (R99, R100). -/
def decodeWord (p : Config.Params) (op : Word) : Instr :=
  match (fieldG op).toNat with
  | 0x0 => decodeGroup0 p op
  | 0x1 => .jp (fieldNNN op)
  | 0x2 => .call (fieldNNN op)
  | 0x3 => .seImm (fieldX op) (fieldNN op)
  | 0x4 => .sneImm (fieldX op) (fieldNN op)
  | 0x5 => if p.lenient59 || fieldN op == 0 then .seReg (fieldX op) (fieldY op) (fieldN op)
           else .nopUndef op
  | 0x6 => .ldImm (fieldX op) (fieldNN op)
  | 0x7 => .addImm (fieldX op) (fieldNN op)
  | 0x8 => decodeGroup8 op
  | 0x9 => if p.lenient59 || fieldN op == 0 then .sneReg (fieldX op) (fieldY op) (fieldN op)
           else .nopUndef op
  | 0xA => .ldI (fieldNNN op)
  | 0xB => .jpV0 (fieldNNN op)
  | 0xC => .rnd (fieldX op) (fieldNN op)
  | 0xD => .drw (fieldX op) (fieldY op) (fieldN op)
  | 0xE => decodeGroupE op
  | _ => decodeGroupF op

/-- Two bytes as an opcode, the more significant first (spec/20_memory.md R63). -/
def composeOpcode (hi lo : Byte) : Word := hi ++ lo

/-- Why a sequence of bytes is no instruction: every instruction is exactly two bytes (R90), and every
two bytes are one (R101). -/
inductive DecodeReject where
  /-- Fewer than two bytes. -/
  | truncated
  deriving DecidableEq, Repr

/-- The decoder on bytes, in memory order: the instruction and the bytes after it. -/
def decode (p : Config.Params) : List Byte → Except DecodeReject (Instr × List Byte)
  | hi :: lo :: rest => .ok (decodeWord p (composeOpcode hi lo), rest)
  | _ => .error .truncated

/-- The 4 bits of a register number. -/
def regBits (r : Reg) : Nibble := BitVec.ofFin r

/-- The word of an instruction (R92, R95); an ignored field is written as the instruction holds it. -/
def encode : Instr → Word
  | .cls k => 0x0#4 ++ k ++ 0xE0#8
  | .ret k => 0x0#4 ++ k ++ 0xEE#8
  | .jp nnn => 0x1#4 ++ nnn
  | .call nnn => 0x2#4 ++ nnn
  | .seImm x nn => 0x3#4 ++ regBits x ++ nn
  | .sneImm x nn => 0x4#4 ++ regBits x ++ nn
  | .seReg x y low => 0x5#4 ++ regBits x ++ regBits y ++ low
  | .ldImm x nn => 0x6#4 ++ regBits x ++ nn
  | .addImm x nn => 0x7#4 ++ regBits x ++ nn
  | .ldReg x y => 0x8#4 ++ regBits x ++ regBits y ++ 0x0#4
  | .orReg x y => 0x8#4 ++ regBits x ++ regBits y ++ 0x1#4
  | .andReg x y => 0x8#4 ++ regBits x ++ regBits y ++ 0x2#4
  | .xorReg x y => 0x8#4 ++ regBits x ++ regBits y ++ 0x3#4
  | .addReg x y => 0x8#4 ++ regBits x ++ regBits y ++ 0x4#4
  | .subReg x y => 0x8#4 ++ regBits x ++ regBits y ++ 0x5#4
  | .shr x y => 0x8#4 ++ regBits x ++ regBits y ++ 0x6#4
  | .subnReg x y => 0x8#4 ++ regBits x ++ regBits y ++ 0x7#4
  | .shl x y => 0x8#4 ++ regBits x ++ regBits y ++ 0xE#4
  | .sneReg x y low => 0x9#4 ++ regBits x ++ regBits y ++ low
  | .ldI nnn => 0xA#4 ++ nnn
  | .jpV0 nnn => 0xB#4 ++ nnn
  | .rnd x nn => 0xC#4 ++ regBits x ++ nn
  | .drw x y n => 0xD#4 ++ regBits x ++ regBits y ++ n
  | .skp x => 0xE#4 ++ regBits x ++ 0x9E#8
  | .sknp x => 0xE#4 ++ regBits x ++ 0xA1#8
  | .ldVxDt x => 0xF#4 ++ regBits x ++ 0x07#8
  | .ldVxK x => 0xF#4 ++ regBits x ++ 0x0A#8
  | .ldDtVx x => 0xF#4 ++ regBits x ++ 0x15#8
  | .ldStVx x => 0xF#4 ++ regBits x ++ 0x18#8
  | .addIVx x => 0xF#4 ++ regBits x ++ 0x1E#8
  | .ldFVx x => 0xF#4 ++ regBits x ++ 0x29#8
  | .ldBVx x => 0xF#4 ++ regBits x ++ 0x33#8
  | .storeRegs x => 0xF#4 ++ regBits x ++ 0x55#8
  | .loadRegs x => 0xF#4 ++ regBits x ++ 0x65#8
  | .nopUndef op => op

/-- A word as its two bytes in memory order (spec/20_memory.md R63). -/
def wordBytes (op : Word) : List Byte := [op.extractLsb' 8 8, op.extractLsb' 0 8]

/-- The two bytes of an instruction in memory order. -/
def encodeBytes (i : Instr) : List Byte := wordBytes (encode i)

/-- The first 16-bit word of an instruction given as a number whose bit 0 is the least significant bit
of that word: bits at and above `nbits` are 0. -/
def tableWord (nbits w : Nat) : Word := BitVec.ofNat 16 (w % 2 ^ nbits)

/-- What the decoder, under the default parameters, reads from the word `w` of `nbits` bits. -/
def decodeTableWord (nbits w : Nat) : Option Instr :=
  match decode Machine.defaultParams (wordBytes (tableWord nbits w)) with
  | .ok (i, _) => some i
  | .error _ => none

end Sys2Proof
end

