-- ==== Sys2Proof/Machine/State.lean ====
section
/-!
DEFINITION. The state of the machine, plain data, and the state after reset (spec/10_state.md R20 to
R31, R38). Beside the spec's tuple it holds the model's own fields: the parameters (log 2), the inputs
of the coming cycles and the number of the next free input (log 1).
-/

namespace Sys2Proof.Machine

/-- What an access to memory was for (spec/60_exceptions.md R251, R257). -/
inductive AccessKind where
  | fetch
  | dataRead
  | dataWrite
  deriving DecidableEq, Repr

/-- The cause of a run-time fault with what R257 records of it. -/
inductive FaultCause where
  /-- `MemoryRangeFault`: the kind of access and the lowest offending address (R251). -/
  | memoryRange (kind : AccessKind) (addr : Nat)
  /-- `StackOverflow`, with `SP` (R252). -/
  | stackOverflow (sp : Fin 16)
  /-- `StackUnderflow`, with `SP` (R253). -/
  | stackUnderflow (sp : Fin 16)
  /-- `KeyIndexFault`, with the value of `V[x]` (R254). -/
  | keyIndex (value : Byte)
  deriving DecidableEq, Repr

/-- `Faulted(cause, info)`: the cause, `pc0`, and `op` when the fault was raised in step 5 (R257). -/
structure FaultRecord where
  cause : FaultCause
  pc0 : Word
  op : Option Word
  deriving DecidableEq, Repr

/-- `status` (spec/10_state.md R31). -/
inductive Status where
  /-- The only status in which `cycle` has a step. -/
  | running
  /-- Entered by a fault, never left (spec/60_exceptions.md R260). -/
  | faulted (info : FaultRecord)
  /-- The program, of this length, did not fit (spec/70_reset_and_hazards.md R293; R257, code 5). -/
  | loadFailed (len : Nat)
  deriving DecidableEq, Repr

/-- The inputs of one cycle: the 16 key levels and the random byte (spec/10_state.md R34, R35). -/
structure Inputs where
  keys : Vector Bool 16
  rnd : Byte
  deriving DecidableEq, Repr

/-- The cells of memory that differ from their reset contents, addresses strictly rising
(`Memory.wf` in Ops.lean). -/
abbrev Memory := List Host.Cell

/-- The state (spec/10_state.md R20). -/
@[ext]
structure State where
  /-- The general registers V0 to VF (R21, R22). -/
  v : Vector Byte 16
  /-- The address register `I` (R23). -/
  i : Word
  /-- The program counter (R24). -/
  pc : Word
  /-- The stack pointer (R25). -/
  sp : Fin 16
  /-- The return-address slots `STACK[0]` to `STACK[15]` (R26). -/
  stack : Vector Word 16
  /-- The delay timer (R27). -/
  dt : Byte
  /-- The sound timer (R28). -/
  st : Byte
  /-- The memory `M` (R29). -/
  mem : Memory
  /-- The frame buffer (R30). -/
  fb : FrameBuffer
  /-- Running, faulted or not loaded (R31). -/
  status : Status
  /-- The model's own: the parameters of spec/00_scope.md R8; no operation writes them (log 2). -/
  params : Config.Params
  /-- The model's own: the inputs the driver presents in the coming cycles, the next cycle's first
  (log 1). -/
  inputs : List Inputs
  /-- The model's own: how many cycles have taken their inputs, which numbers the free inputs that are
  taken when the driver's list is empty (log 1). -/
  inputNo : Nat
  deriving DecidableEq, Repr

/-- Why a step has no next state. A fault of the spec is not here: it is entered as a next state with
status `faulted` (R11, R260). -/
inductive Fault where
  /-- Raised by `step` alone, when the status is `faulted`: "from then on `cycle` has no step"
  (spec/60_exceptions.md R260 (d)). Safe: the model stops where the spec gives no step. -/
  | stuckAfterFault
  /-- Raised by `step` alone, when the status is `loadFailed`: `cycle` has no step
  (spec/70_reset_and_hazards.md R293). Safe: the model stops where the spec gives no step. -/
  | stuckAfterLoadError
  deriving DecidableEq, Repr

/-- Why the model has no meaning for an instruction. -/
inductive Refusal where
  /-- Raised by `exec`'s arm of an instruction that is not modelled yet; no arm raises it now. Safe:
  the model stops. -/
  | notModelled (mnemonic : String)
  deriving DecidableEq, Repr

/-- The state after reset, before a program is loaded (spec/10_state.md R38,
spec/70_reset_and_hazards.md R290): `pc` 0x200, `SP` 0, running; every other register, timer, slot and
cell 0 (the spec's decision D13; DESIGN CHOICE, log 4); memory lists nothing, so that it reads as its
reset contents (`Memory.unlisted`, log 5). -/
def State.reset : State :=
  { v := Vector.replicate 16 0
    i := 0
    pc := 0x200
    sp := 0
    stack := Vector.replicate 16 0
    dt := 0
    st := 0
    mem := []
    fb := 0
    status := .running
    params := defaultParams
    inputs := []
    inputNo := 0 }

end Sys2Proof.Machine
end

