-- ==== Sys2Proof/Machine/Ops.lean ====
section
/-!
DEFINITION. The named operations over registers, memory, stack, timers and inputs, the entry into a
fault, and the parts of a cycle around its step 5 (spec/40_cycle_and_dispatch.md R121 to R128). Every
meaning and `step` are written over these.
-/

namespace Sys2Proof.Machine

/-- The outcome of a step or of a meaning. -/
abbrev Outcome := Host.Outcome State Fault Refusal

/-! ### Memory -/

/-- What an address that memory does not list reads as, its contents after reset: the glyph table at
`FONT_BASE` and 0 everywhere else (spec/10_state.md R38; D13, log 5). The glyph table lies in the
reserved region below 0x200 (spec/20_memory.md R61). -/
def Memory.unlisted (p : Config.Params) (a : Nat) : Byte :=
  if a < Config.progBase then
    if h : p.fontBase.val ≤ a ∧ a < p.fontBase.val + Config.fontLen then
      p.glyphs[a - p.fontBase.val]'(by have := h.2; simp only [Config.fontLen] at this; omega)
    else 0
  else 0

/-- The byte at `a`, given what an unlisted address reads as. -/
def Memory.get (d : Nat → Byte) : Memory → Nat → Byte
  | [], a => d a
  | c :: m, a => if a = c.1 then c.2 else Memory.get d m a

/-- `m` with `c` in front, unless `c` says what an unlisted address reads as. -/
def Memory.cons (d : Nat → Byte) (c : Host.Cell) (m : Memory) : Memory :=
  if c.2 = d c.1 then m else c :: m

/-- Memory with the byte `b` at `a`, kept in the canonical form. -/
def Memory.set (d : Nat → Byte) : Memory → Nat → Byte → Memory
  | [], a, b => Memory.cons d (a, b) []
  | c :: m, a, b =>
    if a < c.1 then Memory.cons d (a, b) (c :: m)
    else if a = c.1 then Memory.cons d (a, b) m
    else c :: Memory.set d m a b

/-- The canonical form: addresses strictly rising and inside the 4096 bytes, no entry equal to what an
unlisted address reads as. -/
abbrev Memory.wf (d : Nat → Byte) (m : Memory) : Prop :=
  m.Pairwise (fun c e => c.1 < e.1) ∧ ∀ c ∈ m, c.1 < Config.memSize ∧ c.2 ≠ d c.1

namespace State

/-! ### Registers -/

/-- `V[r]`. -/
def reg (s : State) (r : Reg) : Byte := s.v[r]

/-- `V[r] <- b`. -/
def setReg (s : State) (r : Reg) (b : Byte) : State := { s with v := s.v.set r b }

/-- `I <- w`. -/
def setI (s : State) (w : Word) : State := { s with i := w }

/-- `pc <- w`. -/
def setPc (s : State) (w : Word) : State := { s with pc := w }

/-- `DT <- b`. -/
def setDt (s : State) (b : Byte) : State := { s with dt := b }

/-- `ST <- b`. -/
def setSt (s : State) (b : Byte) : State := { s with st := b }

/-- `FB <- f`, all cells. -/
def setFb (s : State) (f : FrameBuffer) : State := { s with fb := f }

/-- `pc <- pc +16 2`: step 2 of every cycle, and skip-next in step 5 (R122;
spec/41_control_flow.md R140). -/
def advance (s : State) : State := s.setPc (s.pc + 2)

/-- `pc <- pc -16 2`: back to the instruction's own address (spec/45_keys_timers.md R234, R128). -/
def rewind (s : State) : State := s.setPc (s.pc - 2)

/-! ### The bytes of memory (spec/20_memory.md R62) -/

/-- `MemRead(a, 1)` for an address whose range was tested (R70). -/
def readByte (s : State) (a : Nat) : Byte := s.mem.get (Memory.unlisted s.params) a

/-- `MemWrite(a, 1, b)` for an address whose range was tested (R70); an address outside the 4096 bytes
holds nothing. -/
def writeByte (s : State) (a : Nat) (b : Byte) : State :=
  if a < Config.memSize then { s with mem := s.mem.set (Memory.unlisted s.params) a b } else s

/-- The `count` bytes from `a` on, in ascending address order. -/
def readBytes (s : State) (a : Nat) : Nat → List Byte
  | 0 => []
  | count + 1 => s.readByte a :: readBytes s (a + 1) count

/-- Stores the bytes from `a` on, in ascending address order (spec/20_memory.md R64). -/
def writeBytes (s : State) (a : Nat) : List Byte → State
  | [] => s
  | b :: bs => writeBytes (s.writeByte a b) (a + 1) bs

/-! ### The call stack (spec/10_state.md R25, R26) -/

/-- `SP <- SP + 1; STACK[SP] <- w`, for `SP < 15`. -/
def push (s : State) (w : Word) : State :=
  { s with sp := s.sp + 1, stack := s.stack.set (s.sp + 1 : Fin 16) w }

/-- `STACK[SP]`. -/
def top (s : State) : Word := s.stack[s.sp]

/-- `SP <- SP - 1`, for `SP > 0`; the slot keeps its value (spec/41_control_flow.md R141). -/
def pop (s : State) : State := { s with sp := s.sp - 1 }

/-! ### The inputs (spec/10_state.md R34, R35; log 1) -/

/-- The inputs of the cycle about to run: the driver's, or free ones where it lists none. -/
def input (s : State) : Inputs :=
  match s.inputs with
  | now :: _ => now
  | [] => { keys := Config.freeKeys s.inputNo, rnd := Config.freeRnd s.inputNo }

/-- `KEY[k]` of this cycle. -/
def key (s : State) (k : Fin 16) : Bool := s.input.keys[k]

/-- `RND` of this cycle. -/
def random (s : State) : Byte := s.input.rnd

/-- The cycle has taken its inputs: the driver may present others for the next one. -/
def nextInput (s : State) : State :=
  { s with inputs := s.inputs.tail, inputNo := s.inputNo + 1 }

/-! ### Faults (spec/60_exceptions.md R251 to R261) -/

/-- THE ENTRY INTO A FAULT, of a state in which the cycle has written nothing and `pc` is `pc0`
(R128, R260): `status` becomes `Faulted(cause, info)` with `pc0` and, from step 5, `op` (R257); all
else is kept. There is no handler, no saved register and no return from a fault (R260 (c), R261): the
only way on is a new initialisation (`initialise`). -/
def enterFault (s : State) (cause : FaultCause) (op : Option Word) : State :=
  { s with status := .faulted { cause := cause, pc0 := s.pc, op := op } }

/-- A fault raised in step 5, before the instruction `op` has written anything (R125 (b)): the advance
of step 2 is taken back, then the fault is entered (R128). -/
def raise (s : State) (cause : FaultCause) (op : Word) : State :=
  s.rewind.enterFault cause (some op)

end State

/-- The lowest address above 0xFFF among `base`, …, `base + count - 1`, if there is one
(spec/20_memory.md R69, R70; spec/43_index_memory.md R196): addresses are integers, not wrapped. -/
def firstOutOfRange (base count : Nat) : Option Nat :=
  if count = 0 then none
  else if base + (count - 1) > 0xFFF then some (max base 0x1000)
  else none

namespace State

/-- The all-or-nothing range test of an instruction that accesses `count` bytes from `base` on: a fault
before anything is read or written, or the instruction's own effect `t` (R70). -/
def withRange (s : State) (kind : AccessKind) (base count : Nat) (op : Word) (t : State) : Outcome :=
  match firstOutOfRange base count with
  | some bad => .next (s.raise (.memoryRange kind bad) op)
  | none => .next t

/-! ### The cycle around step 5 -/

/-- Step 1 (R121): the opcode at `pc`, or the state after the fetch fault. -/
def fetch (s : State) : Except State Word :=
  match firstOutOfRange s.pc.toNat 2 with
  | some bad => .error (s.enterFault (.memoryRange .fetch bad) none)
  | none => .ok (composeOpcode (s.readByte s.pc.toNat) (s.readByte (s.pc.toNat + 1)))

/-- A timer one cycle later: one less, and never below 0 (R126). -/
def decayed (t : Byte) : Byte := if t = 0 then 0 else t - 1

/-- Step 6 (R126): both timers decay. -/
def decay (s : State) : State := (s.setDt (decayed s.dt)).setSt (decayed s.st)

/-- The end of a cycle whose step 5 gave `s`: a running machine decays its timers and is done with this
cycle's inputs; a cycle that faulted has neither (R126, R128). -/
def endCycle (s : State) : State :=
  match s.status with
  | .running => s.decay.nextInput
  | .faulted _ => s
  | .loadFailed _ => s

/-- Why there is no step (R31, R120, R260, spec/70_reset_and_hazards.md R293). -/
def stuck (s : State) : Option Fault :=
  match s.status with
  | .running => none
  | .faulted _ => some .stuckAfterFault
  | .loadFailed _ => some .stuckAfterLoadError

/-! ### Initialisation (spec/70_reset_and_hazards.md R290 to R293) -/

/-- Memory after a load error: nothing may be assumed of it (R293, U17; free value, log 17). -/
def loadErrorMemory (p : Config.Params) (program : List Byte) : Memory :=
  (Config.loadErrorCells program).foldl
    (fun m c => if c.1 < Config.memSize then m.set (Memory.unlisted p) c.1 c.2 else m) []

/-- `loadProgram`: the bytes are copied verbatim from 0x200 on (R292); a program longer than 3584 bytes
is refused and leaves the machine without a step (R293). -/
def loadProgram (s : State) (program : List Byte) : State :=
  if program.length ≤ Config.maxProgLen then s.writeBytes Config.progBase program
  else { s with mem := loadErrorMemory s.params program, status := .loadFailed program.length }

/-- The one initialisation procedure, before the first cycle (R290): the reset state with the
parameters and the driver's inputs of a run, and the program loaded. -/
def initialise (p : Config.Params) (driver : List Inputs) (program : List Byte) : State :=
  loadProgram { reset with params := p, inputs := driver } program

end State

/-- What a step makes of the outcome of step 5. -/
def finishCycle : Outcome → Outcome
  | .next t => .next t.endCycle
  | .fault r => .fault r
  | .refused r => .refused r

end Sys2Proof.Machine
end

