-- ==== Sys2Proof/Machine/Flags.lean ====
section
/-!
DEFINITION. The flag computations. The only flag is VF (spec/10_state.md R22); each flag is computed
from the operands before the instruction writes anything (spec/42_alu.md R160, R161).
-/

namespace Sys2Proof.Machine

/-- A flag as stored: the 8-bit value 0 or 1 (R22). -/
def flagByte (f : Bool) : Byte := if f then 1 else 0

/-- The carry of `8xy4`: the true sum exceeds 255 (R168). -/
def carryOut (a b : Byte) : Bool := decide (a.toNat + b.toNat > 255)

/-- The flag of `8xy5` (with `a` = Vx) and `8xy7` (with `a` = Vy): strictly greater (R169, R171). -/
def exceeds (a b : Byte) : Bool := decide (a.toNat > b.toNat)

/-- The bit `8xy6` shifts out: bit 0 (R170). -/
def lowBit (a : Byte) : Bool := a.getLsbD 0

/-- The bit `8xyE` shifts out: bit 7 (R172). -/
def highBit (a : Byte) : Bool := a.getLsbD 7

/-- `V[15] <- f`. -/
def State.setFlag (s : State) (f : Bool) : State := s.setReg VF (flagByte f)

/-- Flag first, result last (R161; the order matters only for `x = 15`, decision D12, log 11). -/
def State.setFlagThenReg (s : State) (x : Reg) (f : Bool) (r : Byte) : State :=
  (s.setFlag f).setReg x r

end Sys2Proof.Machine
end

