-- ==== Sys2Proof/Machine/Alu.lean ====
section
/-!
DEFINITION. The meanings of the register and ALU instructions (spec/42_alu.md). Operands are read
before anything is written (spec/40_cycle_and_dispatch.md R125 (a)); none can fault.
-/

namespace Sys2Proof.Machine

/-- LD Vx, nn (R162). -/
def execLdImm (x : Reg) (nn : Byte) (s : State) : Outcome := .next (s.setReg x nn)

/-- ADD Vx, nn (R163): wraps, no flag. -/
def execAddImm (x : Reg) (nn : Byte) (s : State) : Outcome := .next (s.setReg x (s.reg x + nn))

/-- LD Vx, Vy (R164). -/
def execLdReg (x y : Reg) (s : State) : Outcome := .next (s.setReg x (s.reg y))

/-- OR Vx, Vy (R165): VF not written. -/
def execOrReg (x y : Reg) (s : State) : Outcome := .next (s.setReg x (s.reg x ||| s.reg y))

/-- AND Vx, Vy (R166): VF not written. -/
def execAndReg (x y : Reg) (s : State) : Outcome := .next (s.setReg x (s.reg x &&& s.reg y))

/-- XOR Vx, Vy (R167): VF not written. -/
def execXorReg (x y : Reg) (s : State) : Outcome := .next (s.setReg x (s.reg x ^^^ s.reg y))

/-- ADD Vx, Vy (R168): the named pair, carry out. -/
def execAddReg (x y : Reg) (s : State) : Outcome :=
  .next (s.setFlagThenReg x (carryOut (s.reg x) (s.reg y)) (s.reg x + s.reg y))

/-- SUB Vx, Vy (R169): Vx - Vy, strict greater-than. -/
def execSubReg (x y : Reg) (s : State) : Outcome :=
  .next (s.setFlagThenReg x (exceeds (s.reg x) (s.reg y)) (s.reg x - s.reg y))

/-- SHR Vx (R170): logical; Vy is not read (R98). -/
def execShr (x _y : Reg) (s : State) : Outcome :=
  .next (s.setFlagThenReg x (lowBit (s.reg x)) (s.reg x >>> 1))

/-- SUBN Vx, Vy (R171): Vy - Vx, strict greater-than. -/
def execSubnReg (x y : Reg) (s : State) : Outcome :=
  .next (s.setFlagThenReg x (exceeds (s.reg y) (s.reg x)) (s.reg y - s.reg x))

/-- SHL Vx (R172); Vy is not read (R98). -/
def execShl (x _y : Reg) (s : State) : Outcome :=
  .next (s.setFlagThenReg x (highBit (s.reg x)) (s.reg x <<< 1))

/-- RND Vx, nn (R173): the random byte of this cycle and `nn`. -/
def execRnd (x : Reg) (nn : Byte) (s : State) : Outcome := .next (s.setReg x (s.random &&& nn))

end Sys2Proof.Machine
end

