-- ==== Sys2Proof/Machine/Operands.lean ====
section
/-!
DEFINITION. The operand forms (spec/30_encoding.md R93): zero-extended immediates, memory at `I + k`
(spec/20_memory.md R69), the register range V0 to Vx, the decimal digits of a byte, a glyph's address,
and the key inputs as the instructions see them (spec/45_keys_timers.md R230).
-/

namespace Sys2Proof.Machine

/-- `zext_16` (spec/00_scope.md R10): nothing is sign-extended. -/
def zext16 {n : Nat} (b : BitVec n) : Word := b.setWidth 16

/-- The base address of a data access: `I` as an integer; the bytes are at `I + k`, not wrapped
(R69; spec/43_index_memory.md R196). -/
def baseAddress (s : State) : Nat := s.i.toNat

/-- How many registers V0 to Vx are (spec/43_index_memory.md R194, R195). -/
def rangeCount (x : Reg) : Nat := x.val + 1

/-- `V[0]` to `V[x]`, in order. -/
def rangeBytes (s : State) (x : Reg) : List Byte := s.v.toList.take (rangeCount x)

/-- `V[k] <- M[a + k]` for `k` from 0 to `x`; registers above Vx keep their values (R195). -/
def loadRange (s : State) (x : Reg) (a : Nat) : State :=
  { s with v := Vector.ofFn fun k : Fin 16 => if k ≤ x then s.readByte (a + k.val) else s.v[k] }

/-- The hundreds, tens and ones digit of a byte, in that order (spec/43_index_memory.md R193). -/
def decimalDigits (b : Byte) : List Byte :=
  [BitVec.ofNat 8 (b.toNat / 100), BitVec.ofNat 8 (b.toNat / 10 % 10), BitVec.ofNat 8 (b.toNat % 10)]

/-- `FONT_BASE + 5 * b`, the address of glyph `b`; the whole byte is multiplied
(spec/43_index_memory.md R192). -/
def glyphAddress (p : Config.Params) (b : Byte) : Word :=
  BitVec.ofNat 16 (p.fontBase.val + Config.glyphHeight * b.toNat)

/-- A byte as a key number, if it is one of the 16 (spec/45_keys_timers.md R231, R232). -/
def keyIndex (b : Byte) : Option (Fin 16) :=
  if h : b.toNat < 16 then some ⟨b.toNat, h⟩ else none

/-- The least pressed key: a scan of key states 0 to 15 in ascending order (R234). -/
def firstPressed (s : State) : Option (Fin 16) := (List.finRange 16).find? fun k => s.key k

end Sys2Proof.Machine
end

