-- ==== Sys2Proof/Machine/ControlFlow.lean ====
section
/-!
DEFINITION. The meanings of the control-transfer instructions (spec/41_control_flow.md) and of the
no-op entry (spec/40_cycle_and_dispatch.md R127). In every meaning `pc` is already the address of the
next instruction (R122).
-/

namespace Sys2Proof.Machine

/-- Skip-next when the condition holds (R140). -/
def skipIf (s : State) (c : Bool) : State := if c then s.advance else s

/-- RET (R141). -/
def execRet (k : Nibble) (s : State) : Outcome :=
  if s.sp = 0 then .next (s.raise (.stackUnderflow s.sp) (encode (.ret k)))
  else .next (s.setPc s.top).pop

/-- JP nnn (R142). -/
def execJp (nnn : Addr) (s : State) : Outcome := .next (s.setPc (zext16 nnn))

/-- CALL nnn (R143): the slot receives `pc0 + 2`. -/
def execCall (nnn : Addr) (s : State) : Outcome :=
  if s.sp = 15 then .next (s.raise (.stackOverflow s.sp) (encode (.call nnn)))
  else .next ((s.push s.pc).setPc (zext16 nnn))

/-- SE Vx, nn (R144). -/
def execSeImm (x : Reg) (nn : Byte) (s : State) : Outcome := .next (skipIf s (s.reg x == nn))

/-- SNE Vx, nn (R145). -/
def execSneImm (x : Reg) (nn : Byte) (s : State) : Outcome := .next (skipIf s (s.reg x != nn))

/-- SE Vx, Vy (R146); the low nibble is not read (R97). -/
def execSeReg (x y : Reg) (_low : Nibble) (s : State) : Outcome :=
  .next (skipIf s (s.reg x == s.reg y))

/-- SNE Vx, Vy (R147); the low nibble is not read (R97). -/
def execSneReg (x y : Reg) (_low : Nibble) (s : State) : Outcome :=
  .next (skipIf s (s.reg x != s.reg y))

/-- JP V0, nnn (R148): always V0, not reduced to 12 bits. -/
def execJpV0 (nnn : Addr) (s : State) : Outcome := .next (s.setPc (zext16 nnn + zext16 (s.reg 0)))

/-- An undefined opcode: step 5 does nothing (R99, R127). -/
def execNopUndef (_op : Word) (s : State) : Outcome := .next s

end Sys2Proof.Machine
end

