-- ==== Sys2Proof/Machine/Display.lean ====
section
/-!
DEFINITION. The meanings of the display instructions (spec/44_display.md).
-/

namespace Sys2Proof.Machine

/-- `FB[k]`. -/
def fbCell (f : FrameBuffer) (k : Nat) : Bool := f.getLsbD k

/-- `FB[k] <- FB[k] xor 1` (`setPixel`, R212). -/
def fbToggle (f : FrameBuffer) (k : Nat) : FrameBuffer := f ^^^ BitVec.twoPow 2048 k

/-- The index of the cell of column `c` and row `r` of a sprite drawn at (`vx`, `vy`): every pixel's
coordinates are reduced (R210), or the origin's only (R213). -/
def pixelIndex (mode : DrawMode) (vx vy : Byte) (r c : Nat) : Nat :=
  match mode with
  | .wrapPixel => (vy.toNat + r) % Config.fbHeight * Config.fbWidth + (vx.toNat + c) % Config.fbWidth
  | .wrapOrigin => (vy.toNat % Config.fbHeight + r) * Config.fbWidth + (vx.toNat % Config.fbWidth + c)

/-- The columns of the set bits of a sprite row; bit 7 is column 0 (R212; D10, log 12). -/
def setColumns (row : Byte) : List Nat := (List.range 8).filter fun c => row.getLsbD (7 - c)

/-- The set pixels of a sprite, as (row, column), rows counted from `r`. -/
def spritePixels (r : Nat) : List Byte → List (Nat × Nat)
  | [] => []
  | row :: rows => (setColumns row).map (fun c => (r, c)) ++ spritePixels (r + 1) rows

/-- Toggles cell `k` and notes whether it went from on to off; an index outside the buffer is skipped
(R212). -/
def plot (d : FrameBuffer × Bool) (k : Nat) : FrameBuffer × Bool :=
  if k < Config.fbCells then (fbToggle d.1 k, d.2 || fbCell d.1 k) else d

/-- The frame buffer after a sprite is drawn, and whether any cell went from on to off (R212). -/
def drawSprite (mode : DrawMode) (vx vy : Byte) (rows : List Byte) (f : FrameBuffer) :
    FrameBuffer × Bool :=
  ((spritePixels 0 rows).map fun q => pixelIndex mode vx vy q.1 q.2).foldl plot (f, false)

/-- The frame buffer and the collision of `Dxyn` from the state before it: coordinates, `I` and the
sprite's bytes are read before VF is written (R212; D12, log 11). -/
def drawnFrom (x y : Reg) (n : Nibble) (s : State) : FrameBuffer × Bool :=
  drawSprite s.params.drawMode (s.reg x) (s.reg y) (s.readBytes (baseAddress s) n.toNat) s.fb

/-- CLS (R211). -/
def execCls (_k : Nibble) (s : State) : Outcome := .next (s.setFb 0)

/-- DRW Vx, Vy, n (R212). -/
def execDrw (x y : Reg) (n : Nibble) (s : State) : Outcome :=
  s.withRange .dataRead (baseAddress s) n.toNat (encode (.drw x y n))
    ((s.setFlag (drawnFrom x y n s).2).setFb (drawnFrom x y n s).1)

end Sys2Proof.Machine
end

