-- ==== Sys2Proof/Machine/IndexMemory.lean ====
section
/-!
DEFINITION. The meanings of the address-register and memory instructions
(spec/43_index_memory.md). `I` is written by the first three only; all addresses of an access are
tested before anything is read or written (spec/20_memory.md R70).
-/

namespace Sys2Proof.Machine

/-- LD I, nnn (R190). -/
def execLdI (nnn : Addr) (s : State) : Outcome := .next (s.setI (zext16 nnn))

/-- ADD I, Vx (R191): modulo 65536, no flag. -/
def execAddIVx (x : Reg) (s : State) : Outcome := .next (s.setI (s.i + zext16 (s.reg x)))

/-- LD F, Vx (R192): the address of a glyph; no memory is accessed. -/
def execLdFVx (x : Reg) (s : State) : Outcome := .next (s.setI (glyphAddress s.params (s.reg x)))

/-- LD B, Vx (R193): three decimal digits at `I`, `I + 1`, `I + 2`. -/
def execLdBVx (x : Reg) (s : State) : Outcome :=
  s.withRange .dataWrite (baseAddress s) 3 (encode (.ldBVx x))
    (s.writeBytes (baseAddress s) (decimalDigits (s.reg x)))

/-- LD [I], Vx (R194): V0 to Vx to `I`, …, `I + x`. -/
def execStoreRegs (x : Reg) (s : State) : Outcome :=
  s.withRange .dataWrite (baseAddress s) (rangeCount x) (encode (.storeRegs x))
    (s.writeBytes (baseAddress s) (rangeBytes s x))

/-- LD Vx, [I] (R195): `I`, …, `I + x` to V0 to Vx. -/
def execLoadRegs (x : Reg) (s : State) : Outcome :=
  s.withRange .dataRead (baseAddress s) (rangeCount x) (encode (.loadRegs x))
    (loadRange s x (baseAddress s))

end Sys2Proof.Machine
end

