-- ==== Sys2Proof/Machine/KeysTimers.lean ====
section
/-!
DEFINITION. The meanings of the key and timer instructions (spec/45_keys_timers.md). The decay of
step 6 comes after them, in the same cycle.
-/

namespace Sys2Proof.Machine

/-- SKP Vx (R231): the key is named by the register's value; above 15 is a fault (D7, log 9). -/
def execSkp (x : Reg) (s : State) : Outcome :=
  match keyIndex (s.reg x) with
  | some k => .next (skipIf s (s.key k))
  | none => .next (s.raise (.keyIndex (s.reg x)) (encode (.skp x)))

/-- SKNP Vx (R232). -/
def execSknp (x : Reg) (s : State) : Outcome :=
  match keyIndex (s.reg x) with
  | some k => .next (skipIf s (!s.key k))
  | none => .next (s.raise (.keyIndex (s.reg x)) (encode (.sknp x)))

/-- LD Vx, DT (R233). -/
def execLdVxDt (x : Reg) (s : State) : Outcome := .next (s.setReg x s.dt)

/-- `Fx0A`, key-wait: the least pressed key, or a rewind of `pc` so that the next cycle tries again
(R234). -/
def keyWait (x : Reg) (s : State) : State :=
  match firstPressed s with
  | some k => s.setReg x (BitVec.ofNat 8 k.val)
  | none => s.rewind

/-- LD Vx, K (R234). -/
def execLdVxK (x : Reg) (s : State) : Outcome := .next (keyWait x s)

/-- LD DT, Vx (R235). -/
def execLdDtVx (x : Reg) (s : State) : Outcome := .next (s.setDt (s.reg x))

/-- LD ST, Vx (R236). -/
def execLdStVx (x : Reg) (s : State) : Outcome := .next (s.setSt (s.reg x))

end Sys2Proof.Machine
end

