-- ==== Sys2Proof/Machine/Step.lean ====
section
/-!
DEFINITION. One `cycle` (spec/40_cycle_and_dispatch.md R129): fetch, advance, decode, execute, decay.
-/

namespace Sys2Proof.Machine

/-- `cycle`: no step unless running; a fetch fault is entered at once; otherwise the decoded
instruction runs on the state with `pc` advanced, and the cycle ends. -/
def step (s : State) : Host.Outcome State Fault Refusal :=
  match s.stuck with
  | some r => .fault r
  | none =>
    match s.fetch with
    | .error t => .next t
    | .ok op => finishCycle (exec (decodeWord s.params op) s.advance)

/-- `s` with the two bytes of an opcode (`w`, bits at and above `nbits` zero) at `pc`, high byte first,
so that the next step runs it. A state that could not fetch at all is made to: `pc` is brought to 0x200
if two bytes do not fit at it, the status to running; in `State.reset` both are so already (log 18). -/
def State.withFetchWord (s : State) (nbits w : Nat) : State :=
  let t := if s.pc.toNat + 1 < Config.memSize then s else s.setPc 0x200
  ({ t with status := .running }).writeBytes t.pc.toNat (wordBytes (tableWord nbits w))

end Sys2Proof.Machine
end

