-- ==== Sys2Proof/Safety.lean ====
section
/-!
DEFINITION. What a good run is, in the terms the statements use: the invariant of spec/10_state.md R39,
the idle state of spec/70_reset_and_hazards.md R305, when an instruction faults
(spec/60_exceptions.md R251 to R254, R258), the cells a sprite reaches (spec/44_display.md R210, R213),
and the frames: what is unchanged from one state to the next.
-/

namespace Sys2Proof.Machine

/-- What holds of every state a run reaches (R39 (b), (c)), and the canonical form of memory. R39 (a) is
the type of `sp`. -/
structure State.Inv (s : State) : Prop where
  memory : s.mem.wf (Memory.unlisted s.params)
  returns : ∀ k : Fin 16, 0 < k.val → k.val ≤ s.sp.val → s.stack[k].toNat ≤ 0x1000
  counter : s.pc.toNat ≤ 0x10FE

/-- The opcode that stands at `pc`. -/
def State.opcode (s : State) : Word :=
  composeOpcode (s.readByte s.pc.toNat) (s.readByte (s.pc.toNat + 1))

/-- The machine has an instruction to run: it is running and both bytes at `pc` are inside memory
(R121). -/
def State.Ready (s : State) : Prop := s.status = .running ∧ s.pc.toNat ≤ 0xFFE

/-- An idle state (R305): `JP` to itself at `pc`, both timers 0. -/
def State.Idle (s : State) : Prop :=
  s.Ready ∧ s.opcode = 0x1000 + s.pc ∧ s.dt = 0 ∧ s.st = 0

/-- The state after the other effects `t` of a cycle: both timers one lower while not 0, this cycle's
inputs taken. -/
def afterDecay (t : State) : State :=
  { t with
    dt := if t.dt = 0 then 0 else t.dt - 1
    st := if t.st = 0 then 0 else t.st - 1
    inputs := t.inputs.tail
    inputNo := t.inputNo + 1 }

/-- The fault of a range of `count` bytes from `I` on, at its lowest address above 0xFFF (R251). -/
def rangeFault (s : State) (kind : AccessKind) (count : Nat) : Option FaultCause :=
  if 1 ≤ count ∧ s.i.toNat + count - 1 > 0xFFF then
    some (.memoryRange kind (if s.i.toNat > 0xFFF then s.i.toNat else 0x1000))
  else none

/-- The one fault an instruction raises and when (R251 to R254, R259); no other instruction faults
(R258). -/
def faultOf (i : Instr) (s : State) : Option FaultCause :=
  match i with
  | .call _ => if s.sp.val = 15 then some (.stackOverflow s.sp) else none
  | .ret _ => if s.sp.val = 0 then some (.stackUnderflow s.sp) else none
  | .skp x => if (s.reg x).toNat > 15 then some (.keyIndex (s.reg x)) else none
  | .sknp x => if (s.reg x).toNat > 15 then some (.keyIndex (s.reg x)) else none
  | .drw _ _ n => rangeFault s .dataRead n.toNat
  | .ldBVx _ => rangeFault s .dataWrite 3
  | .storeRegs x => rangeFault s .dataWrite (x.val + 1)
  | .loadRegs x => rangeFault s .dataRead (x.val + 1)
  | .cls _ | .jp _ | .seImm _ _ | .sneImm _ _ | .seReg _ _ _ | .sneReg _ _ _ | .ldImm _ _
  | .addImm _ _ | .ldReg _ _ | .orReg _ _ | .andReg _ _ | .xorReg _ _ | .addReg _ _ | .subReg _ _
  | .shr _ _ | .subnReg _ _ | .shl _ _ | .ldI _ | .jpV0 _ | .rnd _ _ | .ldVxDt _ | .ldVxK _
  | .ldDtVx _ | .ldStVx _ | .addIVx _ | .ldFVx _ | .nopUndef _ => none

/-- The `count` bytes from `I` on are inside memory. -/
def State.InRange (s : State) (count : Nat) : Prop := count = 0 ∨ s.i.toNat + count - 1 ≤ 0xFFF

/-- The sprite of `Dxyn` in `s` reaches cell `k` of the frame buffer: bit `7 - c` of its row `r` is set
and stands at cell `k` (R210, R213; bit 7 leftmost, D10). -/
def Reaches (s : State) (x y : Reg) (n : Nibble) (k : Nat) : Prop :=
  ∃ r c : Nat, r < n.toNat ∧ c < 8 ∧ (s.readByte (s.i.toNat + r)).getLsbD (7 - c) = true ∧
    k = match s.params.drawMode with
        | .wrapPixel => ((s.reg y).toNat + r) % 32 * 64 + ((s.reg x).toNat + c) % 64
        | .wrapOrigin => ((s.reg y).toNat % 32 + r) * 64 + ((s.reg x).toNat % 64 + c)

/-! ### Frames -/

/-- From `s` to `t` nothing changes but registers of `D`. -/
def OnlyRegisters (D : Reg → Prop) (s t : State) : Prop :=
  t = { s with v := t.v } ∧ (∀ r, ¬ D r → t.reg r = s.reg r) ∧ ∀ a, t.readByte a = s.readByte a

/-- From `s` to `t` nothing changes but `pc`. -/
def OnlyCounter (s t : State) : Prop :=
  t = { s with pc := t.pc } ∧ (∀ r, t.reg r = s.reg r) ∧ ∀ a, t.readByte a = s.readByte a

/-- From `s` to `t` nothing changes but the `count` bytes of memory from `base` on. -/
def OnlyBytes (base count : Nat) (s t : State) : Prop :=
  t = { s with mem := t.mem } ∧ (∀ r, t.reg r = s.reg r) ∧
    ∀ a, (a < base ∨ base + count ≤ a) → t.readByte a = s.readByte a

/-- From `s` to `t` nothing changes but `pc`, `SP` and the slots of the call stack. -/
def OnlyCallStack (s t : State) : Prop :=
  t = { s with pc := t.pc, sp := t.sp, stack := t.stack } ∧ (∀ r, t.reg r = s.reg r) ∧
    ∀ a, t.readByte a = s.readByte a

/-- From `s` to `t` nothing changes but `I`. -/
def OnlyAddressRegister (s t : State) : Prop :=
  t = { s with i := t.i } ∧ (∀ r, t.reg r = s.reg r) ∧ ∀ a, t.readByte a = s.readByte a

/-- From `s` to `t` nothing changes but the frame buffer and VF. -/
def OnlyScreenAndFlag (s t : State) : Prop :=
  t = { s with v := t.v, fb := t.fb } ∧ (∀ r, r ≠ VF → t.reg r = s.reg r) ∧
    ∀ a, t.readByte a = s.readByte a

/-- A part of the state that instructions write (the columns of the access matrix, R40); memory and the
call stack by byte and by slot. -/
inductive Part where
  | reg (r : Reg)
  | addressRegister
  | byte (a : Nat)
  | slot (k : Fin 16)
  | stackPointer
  | counter
  | screen
  | delayTimer
  | soundTimer
  deriving DecidableEq, Repr

/-- The `w` entries of the access matrix, row by row (spec/10_state.md R40): what an instruction writes
in step 5 from `s`, of `pc` only what goes beyond the advance of step 2. A call writes the slot above
`SP` (R143), a store its 3 or `x + 1` bytes from `I` on; "w if taken" and "w if a key is pressed" are
conditions on `s`. -/
def mayWrite (i : Instr) (s : State) (p : Part) : Prop :=
  match i with
  | .cls _ => p = .screen
  | .ret _ => p = .stackPointer ∨ p = .counter
  | .jp _ | .jpV0 _ => p = .counter
  | .call _ => (∃ k : Fin 16, k.val = s.sp.val + 1 ∧ p = .slot k) ∨ p = .stackPointer ∨ p = .counter
  | .seImm x nn => s.reg x = nn ∧ p = .counter
  | .sneImm x nn => s.reg x ≠ nn ∧ p = .counter
  | .seReg x y _ => s.reg x = s.reg y ∧ p = .counter
  | .sneReg x y _ => s.reg x ≠ s.reg y ∧ p = .counter
  | .skp x => (∃ k : Fin 16, k.val = (s.reg x).toNat ∧ s.key k = true) ∧ p = .counter
  | .sknp x => (∃ k : Fin 16, k.val = (s.reg x).toNat ∧ s.key k = false) ∧ p = .counter
  | .ldImm x _ | .addImm x _ | .ldReg x _ | .orReg x _ | .andReg x _ | .xorReg x _ | .rnd x _
  | .ldVxDt x => p = .reg x
  | .addReg x _ | .subReg x _ | .shr x _ | .subnReg x _ | .shl x _ => p = .reg x ∨ p = .reg VF
  | .ldI _ | .addIVx _ | .ldFVx _ => p = .addressRegister
  | .drw _ _ _ => p = .reg VF ∨ p = .screen
  | .ldVxK x => ((∃ k, s.key k = true) ∧ p = .reg x) ∨ ((∀ k, s.key k = false) ∧ p = .counter)
  | .ldDtVx _ => p = .delayTimer
  | .ldStVx _ => p = .soundTimer
  | .ldBVx _ => ∃ a, baseAddress s ≤ a ∧ a < baseAddress s + 3 ∧ p = .byte a
  | .storeRegs x => ∃ a, baseAddress s ≤ a ∧ a < baseAddress s + rangeCount x ∧ p = .byte a
  | .loadRegs x => ∃ r, r ≤ x ∧ p = .reg r
  | .nopUndef _ => False

/-- Everything `i` does not write from `s` is the same in `t` as in `s`. -/
structure Untouched (i : Instr) (s t : State) : Prop where
  reg : ∀ r, ¬ mayWrite i s (.reg r) → t.reg r = s.reg r
  addressRegister : ¬ mayWrite i s .addressRegister → t.i = s.i
  bytes : ∀ a, ¬ mayWrite i s (.byte a) → t.readByte a = s.readByte a
  slots : ∀ k : Fin 16, ¬ mayWrite i s (.slot k) → t.stack[k] = s.stack[k]
  stackPointer : ¬ mayWrite i s .stackPointer → t.sp = s.sp
  counter : ¬ mayWrite i s .counter → t.pc = s.pc
  screen : ¬ mayWrite i s .screen → t.fb = s.fb
  delayTimer : ¬ mayWrite i s .delayTimer → t.dt = s.dt
  soundTimer : ¬ mayWrite i s .soundTimer → t.st = s.st
  status : t.status = s.status
  params : t.params = s.params
  inputs : t.inputs = s.inputs ∧ t.inputNo = s.inputNo

/-- `i` reads neither the keys nor the random byte (R40, columns KEY and RND). -/
def ignoresInputs (i : Instr) : Prop :=
  (∀ x, i ≠ .skp x) ∧ (∀ x, i ≠ .sknp x) ∧ (∀ x, i ≠ .ldVxK x) ∧ ∀ x nn, i ≠ .rnd x nn

/-- `f` after the outcome, where it is a next state. -/
def mapNext (f : State → State) : Outcome → Outcome
  | .next t => .next (f t)
  | .fault r => .fault r
  | .refused r => .refused r

end Sys2Proof.Machine
end

