-- ==== Sys2Proof/Certificates/Slice0/Obligations.lean ====
section
/-!
DEFINITION. The statements for the provers, in the order of OBLIGATIONS.json. Each says which rules of
spec/ it formalises. A statement that rests on one of the spec's own decisions (`D<n>` of
spec/92_eei_decisions.md) or of the model's logs says so.
-/

open Sys2Proof Sys2Proof.Machine

/-! ### Decoding and encoding (spec/30_encoding.md) -/

/-- Words written out from the encodings of R95, at least one of each family, and two that are no
instruction, decode to what they stand for, under the default parameters. -/
def Obligations.SpecWordsDecodeToTheirInstructions : Prop :=
  decodeWord defaultParams 0b0000000011100000 = .cls 0 ∧
  decodeWord defaultParams 0b0000000011101110 = .ret 0 ∧
  decodeWord defaultParams 0b0001001000110100 = .jp 0x234 ∧
  decodeWord defaultParams 0b0011001100101010 = .seImm 3 0x2A ∧
  decodeWord defaultParams 0b0111000100000010 = .addImm 1 0x02 ∧
  decodeWord defaultParams 0b1000000100100101 = .subReg 1 2 ∧
  decodeWord defaultParams 0b1010001011110000 = .ldI 0x2F0 ∧
  decodeWord defaultParams 0b1100000100001111 = .rnd 1 0x0F ∧
  decodeWord defaultParams 0b1101000100100101 = .drw 1 2 5 ∧
  decodeWord defaultParams 0b1110001010011110 = .skp 2 ∧
  decodeWord defaultParams 0b1111000100110011 = .ldBVx 1 ∧
  decodeWord defaultParams 0b1111001001010101 = .storeRegs 2 ∧
  decodeWord defaultParams 0b0101000100100001 = .nopUndef 0x5121 ∧
  decodeWord defaultParams 0b0000000100100011 = .nopUndef 0x0123

/-- The two bytes of every well-formed instruction, high byte first, decode to that instruction and
leave the bytes after them, whatever the parameters. -/
def Obligations.EncodedInstructionsDecodeBack : Prop :=
  ∀ (p : Config.Params) (i : Instr) (rest : List Byte),
    i.wf p = true → decode p (encodeBytes i ++ rest) = .ok (i, rest)

/-- Every 16-bit value decodes to a well-formed instruction (R101), whose word it is. That the ignored
bits of `0kE0`, `0kEE`, `8xy6`, `8xyE` and, under `LENIENT_59`, of groups 5 and 9 come back too is the
model's choice, not R101's: the constructors keep these fields (DESIGN CHOICE, log 14). -/
def Obligations.EveryWordIsRebuiltFromItsInstruction : Prop :=
  ∀ (p : Config.Params) (op : Word),
    (decodeWord p op).wf p = true ∧ encode (decodeWord p op) = op

/-- A value is the instruction of a row of the opcode map exactly when `op and mask = match`, so no two
rows match one value, and it is the no-op entry exactly when no row matches (R95, R99). The masks of
groups 0, 5 and 9 rest on D15 and their parameters, log 14. -/
def Obligations.OpcodeMapSelectsTheInstruction : Prop :=
  ∀ (p : Config.Params) (op : Word),
    (∀ (k : Nat) (r : OpcodeRow), (opcodeRows p)[k]? = some r →
      (op &&& r.mask = r.pattern ↔ (decodeWord p op).rowNumber = k)) ∧
    (decodeWord p op = .nopUndef op ↔ ∀ r ∈ opcodeRows p, op &&& r.mask ≠ r.pattern)

/-! ### The cycle (spec/40_cycle_and_dispatch.md) -/

/-- When the two bytes at `pc` decode to `i`, the step is `exec i` of the state with `pc` advanced by 2;
a next state that is running then has its timers decayed (R129) and this cycle's inputs taken (the
model's choice, log 1). -/
def Obligations.StepRunsTheInstructionAtPc : Prop :=
  ∀ (s : State) (i : Instr), s.Ready →
    decode s.params (s.readBytes s.pc.toNat 2) = .ok (i, []) →
    step s =
      match exec i { s with pc := s.pc + 2 } with
      | .next t => .next (if t.status = .running then afterDecay t else t)
      | .fault r => .fault r
      | .refused r => .refused r

/-- A running machine with no two bytes of memory at `pc` enters the fetch fault, with the lowest
address above 0xFFF, and keeps everything else (R121, R128; the spec's decisions D4, D5; logs 7, 8). -/
def Obligations.FetchOutsideMemoryFaults : Prop :=
  ∀ s : State, s.status = .running → s.pc.toNat > 0xFFE →
    step s = .next { s with
      status := .faulted
        { cause := .memoryRange .fetch (if s.pc.toNat > 0xFFF then s.pc.toNat else s.pc.toNat + 1)
          pc0 := s.pc
          op := none } }

/-- A running machine always has a next state, running or faulted: no instruction stops the model
(R11; status and fault entry are the spec's decision D5, log 7). -/
def Obligations.RunningMachineAlwaysSteps : Prop :=
  ∀ s : State, s.status = .running →
    ∃ t, step s = .next t ∧ (t.status = .running ∨ ∃ info, t.status = .faulted info)

/-- A machine that is not running has no step (R31, R260 (d), R293; decisions D5, D21; log 7). -/
def Obligations.StoppedMachineHasNoStep : Prop :=
  ∀ s : State,
    (∀ info, s.status = .faulted info → step s = .fault .stuckAfterFault) ∧
    (∀ len, s.status = .loadFailed len → step s = .fault .stuckAfterLoadError)

/-- A cycle that does not end running keeps nothing but the new status, which records `pc0` and, when
the fault was raised in step 5, the opcode (R128, R257, R260; the spec's decisions D5, D6; logs 7,
10); the cycle's inputs stay untaken too (the model's choice, log 20). -/
def Obligations.FaultingCycleKeepsEverythingElse : Prop :=
  ∀ s t : State, step s = .next t → t.status ≠ .running →
    t = { s with status := t.status } ∧
    ∃ info, t.status = .faulted info ∧ info.pc0 = s.pc ∧
      ((s.pc.toNat > 0xFFE ∧ info.op = none) ∨ (s.pc.toNat ≤ 0xFFE ∧ info.op = some s.opcode))

/-- An instruction raises the one fault the spec lists for it exactly under its condition, with nothing
written and `pc` taken back to the instruction; in all other cases it completes and the status is
unchanged (R251 to R254, R258, R259; the spec's decisions D4 to D7; logs 7 to 10). -/
def Obligations.InstructionsFaultExactlyWhenListed : Prop :=
  ∀ (i : Instr) (s : State),
    match faultOf i s with
    | some c => exec i s = .next { s with
        pc := s.pc - 2
        status := .faulted { cause := c, pc0 := s.pc - 2, op := some (encode i) } }
    | none => ∃ t, exec i s = .next t ∧ t.status = s.status

/-- A value that matches no row only advances `pc` by 2 and lets the timers decay (R127), while this
cycle's inputs are taken (the model's choice, log 1); as an instruction it does nothing. -/
def Obligations.UndefinedOpcodeOnlyAdvances : Prop :=
  (∀ s : State, s.Ready → (∀ r ∈ opcodeRows s.params, s.opcode &&& r.mask ≠ r.pattern) →
    step s = .next (afterDecay { s with pc := s.pc + 2 })) ∧
  ∀ (op : Word) (s : State), exec (.nopUndef op) s = .next s

/-! ### Whole-machine rules -/

/-- The reset state meets the invariant of R39. -/
def Obligations.ResetStateMeetsTheInvariant : Prop := State.reset.Inv

/-- Every step keeps the invariant of R39: memory in canonical form, return addresses at most 0x1000,
`pc` at most 0x10FE; from any state that meets it, not only from reachable ones. -/
def Obligations.EveryStepKeepsTheInvariant : Prop :=
  ∀ s t : State, s.Inv → step s = .next t → t.Inv

/-- The access matrix R40: an instruction that does not fault leaves everything unchanged that its row
does not mark as written (every byte outside the 3 of `Fx33` or the `x + 1` of `Fx55`, every slot but
the new one of `2nnn`, `pc` of a skip not taken), and never changes the status, the parameters or the
inputs (the last two the model's own fields, logs 1 and 2). -/
def Obligations.AccessMatrixHolds : Prop :=
  ∀ (i : Instr) (s t : State), faultOf i s = none → exec i s = .next t → Untouched i s t

/-- No step changes the parameters, which are the model's arguments (R8; the model's choice to carry
them in the state, log 2). -/
def Obligations.ParametersNeverChange : Prop :=
  ∀ s t : State, step s = .next t → t.params = s.params

/-- Only `Ex9E`, `ExA1`, `Fx0A` and `Cxnn` depend on the inputs of the cycle (R34, R35, R40; the inputs
are carried in the state by the model's choice, log 1). -/
def Obligations.OtherInstructionsIgnoreTheInputs : Prop :=
  ∀ (i : Instr) (s : State) (l : List Inputs), ignoresInputs i →
    exec i { s with inputs := l } = mapNext (fun t => { t with inputs := l }) (exec i s)

/-- `DT`: written by `Fx15`, read by `Fx07`, one lower after every cycle that ends running, never below
0; no other instruction's effect depends on it (R27). -/
def Obligations.DelayTimerFollowsItsRule : Prop :=
  (∀ s t : State, s.Ready → step s = .next t → t.status = .running →
    (t.dt.toNat =
      (match decodeWord s.params s.opcode with
        | .ldDtVx x => (s.reg x).toNat
        | _ => s.dt.toNat) - 1) ∧
    ∀ x, decodeWord s.params s.opcode = .ldVxDt x → t.reg x = s.dt) ∧
  ∀ (i : Instr) (s : State) (b : Byte), (∀ x, i ≠ .ldVxDt x) →
    exec i { s with dt := b } =
      mapNext (fun t => { t with dt := match i with | .ldDtVx x => s.reg x | _ => b }) (exec i s)

/-- `ST`: written by `Fx18`, one lower after every cycle that ends running, never below 0; no
instruction reads it (R28). -/
def Obligations.SoundTimerFollowsItsRule : Prop :=
  (∀ s t : State, s.Ready → step s = .next t → t.status = .running →
    t.st.toNat =
      (match decodeWord s.params s.opcode with
        | .ldStVx x => (s.reg x).toNat
        | _ => s.st.toNat) - 1) ∧
  ∀ (i : Instr) (s : State) (b : Byte),
    exec i { s with st := b } =
      mapNext (fun t => { t with st := match i with | .ldStVx x => s.reg x | _ => b }) (exec i s)

/-- An idle state is a fixed point of the cycle, whatever the keys and the random byte: only the inputs
are taken (R305; taking them is the model's choice, log 1). -/
def Obligations.IdleStateIsAFixedPoint : Prop :=
  ∀ s : State, s.Idle →
    step s = .next { s with inputs := s.inputs.tail, inputNo := s.inputNo + 1 }

/-! ### Register and ALU instructions (spec/42_alu.md) -/

/-- `6xnn` loads the immediate, `7xnn` adds it modulo 256; no other register, VF included, changes
(R162, R163). -/
def Obligations.LoadAndAddImmediate : Prop :=
  ∀ (x : Reg) (nn : Byte) (s : State),
    (∃ t, exec (.ldImm x nn) s = .next t ∧ OnlyRegisters (· = x) s t ∧ t.reg x = nn) ∧
    ∃ t, exec (.addImm x nn) s = .next t ∧ OnlyRegisters (· = x) s t ∧
      (t.reg x).toNat = ((s.reg x).toNat + nn.toNat) % 256

/-- `8xy0` copies, `8xy1`, `8xy2`, `8xy3` combine bit by bit; no other register, VF included, changes
(R164 to R167). -/
def Obligations.CopyAndBitwiseForms : Prop :=
  ∀ (x y : Reg) (s : State),
    (∃ t, exec (.ldReg x y) s = .next t ∧ OnlyRegisters (· = x) s t ∧ t.reg x = s.reg y) ∧
    (∃ t, exec (.orReg x y) s = .next t ∧ OnlyRegisters (· = x) s t ∧
      ∀ b, (t.reg x).getLsbD b = ((s.reg x).getLsbD b || (s.reg y).getLsbD b)) ∧
    (∃ t, exec (.andReg x y) s = .next t ∧ OnlyRegisters (· = x) s t ∧
      ∀ b, (t.reg x).getLsbD b = ((s.reg x).getLsbD b && (s.reg y).getLsbD b)) ∧
    ∃ t, exec (.xorReg x y) s = .next t ∧ OnlyRegisters (· = x) s t ∧
      ∀ b, (t.reg x).getLsbD b = ((s.reg x).getLsbD b ^^ (s.reg y).getLsbD b)

/-- `8xy4`, `8xy5`, `8xy7` with Vx not VF: the sum or difference modulo 256 in Vx, and in VF the carry or
the strict comparison of the old values, 0 or 1; Vy may be VF (R161, R168, R169, R171). -/
def Obligations.AddAndSubtractWriteResultAndFlag : Prop :=
  ∀ (x y : Reg) (s : State), x ≠ VF →
    (∃ t, exec (.addReg x y) s = .next t ∧ OnlyRegisters (fun r => r = x ∨ r = VF) s t ∧
      (t.reg x).toNat = ((s.reg x).toNat + (s.reg y).toNat) % 256 ∧
      t.reg VF = if (s.reg x).toNat + (s.reg y).toNat > 255 then 1 else 0) ∧
    (∃ t, exec (.subReg x y) s = .next t ∧ OnlyRegisters (fun r => r = x ∨ r = VF) s t ∧
      (t.reg x).toNat = ((s.reg x).toNat + 256 - (s.reg y).toNat) % 256 ∧
      t.reg VF = if (s.reg x).toNat > (s.reg y).toNat then 1 else 0) ∧
    ∃ t, exec (.subnReg x y) s = .next t ∧ OnlyRegisters (fun r => r = x ∨ r = VF) s t ∧
      (t.reg x).toNat = ((s.reg y).toNat + 256 - (s.reg x).toNat) % 256 ∧
      t.reg VF = if (s.reg y).toNat > (s.reg x).toNat then 1 else 0

/-- `8xy6` and `8xyE` with Vx not VF shift Vx in place by one; VF is the bit shifted out of the original
value; Vy, whatever it is, is not read (R170, R172). -/
def Obligations.ShiftsWriteResultAndFlag : Prop :=
  ∀ (x y : Reg) (s : State), x ≠ VF →
    (∃ t, exec (.shr x y) s = .next t ∧ OnlyRegisters (fun r => r = x ∨ r = VF) s t ∧
      (t.reg x).toNat = (s.reg x).toNat / 2 ∧
      (t.reg VF).toNat = (s.reg x).toNat % 2) ∧
    ∃ t, exec (.shl x y) s = .next t ∧ OnlyRegisters (fun r => r = x ∨ r = VF) s t ∧
      (t.reg x).toNat = (s.reg x).toNat * 2 % 256 ∧
      (t.reg VF).toNat = (s.reg x).toNat / 128

/-- The five flag writers with VF as Vx, any Vy: the result of the old values is written last and the
flag is lost. This order is the spec's own decision D12 (R161), log 11. -/
def Obligations.FlagWritersWithVFAsDestination : Prop :=
  ∀ (y : Reg) (s : State),
    (∃ t, exec (.addReg VF y) s = .next t ∧ OnlyRegisters (· = VF) s t ∧
      (t.reg VF).toNat = ((s.reg VF).toNat + (s.reg y).toNat) % 256) ∧
    (∃ t, exec (.subReg VF y) s = .next t ∧ OnlyRegisters (· = VF) s t ∧
      (t.reg VF).toNat = ((s.reg VF).toNat + 256 - (s.reg y).toNat) % 256) ∧
    (∃ t, exec (.subnReg VF y) s = .next t ∧ OnlyRegisters (· = VF) s t ∧
      (t.reg VF).toNat = ((s.reg y).toNat + 256 - (s.reg VF).toNat) % 256) ∧
    (∃ t, exec (.shr VF y) s = .next t ∧ OnlyRegisters (· = VF) s t ∧
      (t.reg VF).toNat = (s.reg VF).toNat / 2) ∧
    ∃ t, exec (.shl VF y) s = .next t ∧ OnlyRegisters (· = VF) s t ∧
      (t.reg VF).toNat = (s.reg VF).toNat * 2 % 256

/-- `Cxnn` writes the random byte of the cycle and `nn` to Vx: for every draw the driver may present,
and for the free draw where it presents none (R173; the input is the spec's decision D16, log 1). -/
def Obligations.RandomByteIsMasked : Prop :=
  ∀ (x : Reg) (nn : Byte) (s : State),
    ∃ t, exec (.rnd x nn) s = .next t ∧ OnlyRegisters (· = x) s t ∧
      (∀ now later, s.inputs = now :: later → t.reg x = now.rnd &&& nn) ∧
      ∀ b, (t.reg x).getLsbD b = true → nn.getLsbD b = true

/-! ### Control transfer (spec/41_control_flow.md) -/

/-- The four register skips add 2 to the already advanced `pc` when their condition holds, and change
nothing else (R144 to R147). -/
def Obligations.RegisterSkips : Prop :=
  ∀ (x y : Reg) (nn : Byte) (low : Nibble) (s : State),
    (∃ t, exec (.seImm x nn) s = .next t ∧ OnlyCounter s t ∧
      t.pc = if s.reg x = nn then s.pc + 2 else s.pc) ∧
    (∃ t, exec (.sneImm x nn) s = .next t ∧ OnlyCounter s t ∧
      t.pc = if s.reg x = nn then s.pc else s.pc + 2) ∧
    (∃ t, exec (.seReg x y low) s = .next t ∧ OnlyCounter s t ∧
      t.pc = if s.reg x = s.reg y then s.pc + 2 else s.pc) ∧
    ∃ t, exec (.sneReg x y low) s = .next t ∧ OnlyCounter s t ∧
      t.pc = if s.reg x = s.reg y then s.pc else s.pc + 2

/-- `1nnn` sets `pc` to `nnn`, `Bnnn` to `nnn + V0`, at most 0x10FE and not reduced to 12 bits; nothing
else changes (R142, R148). -/
def Obligations.JumpsSetTheCounter : Prop :=
  ∀ (nnn : Addr) (s : State),
    (∃ t, exec (.jp nnn) s = .next t ∧ OnlyCounter s t ∧ t.pc.toNat = nnn.toNat) ∧
    ∃ t, exec (.jpV0 nnn) s = .next t ∧ OnlyCounter s t ∧
      t.pc.toNat = nnn.toNat + (s.reg 0).toNat

/-- `2nnn` below the stack limit raises `SP` by one, stores the advanced `pc` in the new slot, keeps the
other slots and jumps (R143; its overflow fault is `InstructionsFaultExactlyWhenListed`). -/
def Obligations.CallPushesTheReturnAddress : Prop :=
  ∀ (nnn : Addr) (s : State), s.sp.val < 15 →
    ∃ t, exec (.call nnn) s = .next t ∧ OnlyCallStack s t ∧
      t.pc.toNat = nnn.toNat ∧ t.sp.val = s.sp.val + 1 ∧ t.stack[t.sp] = s.pc ∧
      ∀ k : Fin 16, k ≠ t.sp → t.stack[k] = s.stack[k]

/-- `00EE` on a stack that is not empty sets `pc` to the slot at `SP`, lowers `SP` by one and clears no
slot (R141; its underflow fault is `InstructionsFaultExactlyWhenListed`). -/
def Obligations.ReturnPopsTheReturnAddress : Prop :=
  ∀ (k : Nibble) (s : State), 0 < s.sp.val →
    ∃ t, exec (.ret k) s = .next t ∧ OnlyCallStack s t ∧
      t.pc = s.stack[s.sp] ∧ t.sp.val + 1 = s.sp.val ∧ t.stack = s.stack

/-- A call and, later, a return at the same depth with the slots as the call left them: `pc` is the
instruction after the call and `SP` is as before the call (R143, example of the document). -/
def Obligations.ReturnUndoesCall : Prop :=
  ∀ (nnn : Addr) (k : Nibble) (s : State), s.sp.val < 15 →
    ∃ t, exec (.call nnn) s = .next t ∧
      ∀ u : State, u.sp = t.sp → u.stack = t.stack →
        ∃ w, exec (.ret k) u = .next w ∧ w.pc = s.pc ∧ w.sp = s.sp

/-! ### Address register and memory (spec/43_index_memory.md) -/

/-- `Annn` sets `I` to `nnn`, zero-extended, and nothing else (R190). -/
def Obligations.LoadAddressRegister : Prop :=
  ∀ (nnn : Addr) (s : State),
    ∃ t, exec (.ldI nnn) s = .next t ∧ OnlyAddressRegister s t ∧ t.i.toNat = nnn.toNat

/-- `Fx1E` adds the whole Vx to `I` modulo 65536 (the wrap is the spec's decision D18, log 15); `Fx29`
sets `I` to `FONT_BASE + 5 * Vx` for every Vx and every `FONT_BASE` (R191, R192; D8, log 2). No flag is
written. -/
def Obligations.AddressRegisterArithmetic : Prop :=
  ∀ (x : Reg) (s : State),
    (∃ t, exec (.addIVx x) s = .next t ∧ OnlyAddressRegister s t ∧
      t.i.toNat = (s.i.toNat + (s.reg x).toNat) % 65536) ∧
    ∃ t, exec (.ldFVx x) s = .next t ∧ OnlyAddressRegister s t ∧
      t.i.toNat = s.params.fontBase.val + 5 * (s.reg x).toNat

/-- `Fx33` inside memory stores the hundreds, tens and ones digit of Vx at `I`, `I + 1`, `I + 2` and
changes no other byte (R193). -/
def Obligations.DecimalDigitsAreStored : Prop :=
  ∀ (x : Reg) (s : State), s.mem.wf (Memory.unlisted s.params) → s.InRange 3 →
    ∃ t, exec (.ldBVx x) s = .next t ∧ OnlyBytes s.i.toNat 3 s t ∧
      (t.readByte s.i.toNat).toNat = (s.reg x).toNat / 100 ∧
      (t.readByte (s.i.toNat + 1)).toNat = (s.reg x).toNat / 10 % 10 ∧
      (t.readByte (s.i.toNat + 2)).toNat = (s.reg x).toNat % 10

/-- `Fx55` inside memory stores V0 to Vx at `I` to `I + x` and changes no other byte (R194). -/
def Obligations.RegisterRangeIsStored : Prop :=
  ∀ (x : Reg) (s : State), s.mem.wf (Memory.unlisted s.params) → s.InRange (x.val + 1) →
    ∃ t, exec (.storeRegs x) s = .next t ∧ OnlyBytes s.i.toNat (x.val + 1) s t ∧
      ∀ k : Reg, k ≤ x → t.readByte (s.i.toNat + k.val) = s.reg k

/-- `Fx65` inside memory loads V0 to Vx from `I` to `I + x`; the other registers, `I` and memory are
unchanged (R195). -/
def Obligations.RegisterRangeIsLoaded : Prop :=
  ∀ (x : Reg) (s : State), s.InRange (x.val + 1) →
    ∃ t, exec (.loadRegs x) s = .next t ∧ OnlyRegisters (· ≤ x) s t ∧
      ∀ k : Reg, k ≤ x → t.reg k = s.readByte (s.i.toNat + k.val)

/-- Code stored by `Fx55` is what a later fetch at its address reads: registers Vk and V(k+1) as one
opcode, Vk the high byte (spec/20_memory.md R63, R76). -/
def Obligations.StoredCodeIsFetched : Prop :=
  ∀ (x : Reg) (s : State), s.mem.wf (Memory.unlisted s.params) → s.InRange (x.val + 1) →
    ∃ t, exec (.storeRegs x) s = .next t ∧
      ∀ j k : Reg, k.val = j.val + 1 → k ≤ x →
        ({ t with pc := s.i + BitVec.ofNat 16 j.val } : State).fetch =
          .ok (BitVec.ofNat 16 ((s.reg j).toNat * 256 + (s.reg k).toNat))

/-! ### Display (spec/44_display.md) -/

/-- `00E0` turns all 2048 cells off and touches nothing else, VF included (R211). -/
def Obligations.ClearTurnsEveryCellOff : Prop :=
  ∀ (k : Nibble) (s : State),
    ∃ t, exec (.cls k) s = .next t ∧ t = { s with fb := t.fb } ∧
      (∀ r, t.reg r = s.reg r) ∧ (∀ a, t.readByte a = s.readByte a) ∧ ∀ j, fbCell t.fb j = false

/-- With per-pixel wrapping the index of a pixel is always that of a cell, `(y mod 32) * 64 + x mod 64`:
the bounds test never skips a pixel (R210; `DRAW_MODE` by the spec's decision D11, log 13). -/
def Obligations.WrappedPixelIsAlwaysInside : Prop :=
  ∀ (vx vy : Byte) (r c : Nat),
    pixelIndex .wrapPixel vx vy r c = (vy.toNat + r) % 32 * 64 + (vx.toNat + c) % 64 ∧
    pixelIndex .wrapPixel vx vy r c < 2048

/-- `Dxyn` inside memory toggles exactly the cells its sprite reaches, each once, and sets VF to 1 when
one of them was on and to 0 otherwise; coordinates are those before the instruction, VF included
(R212, R213; the spec's decisions D10 to D12; logs 11 to 13). -/
def Obligations.DrawTogglesExactlyTheSprite : Prop :=
  ∀ (x y : Reg) (n : Nibble) (s : State), s.InRange n.toNat →
    ∃ t, exec (.drw x y n) s = .next t ∧ OnlyScreenAndFlag s t ∧
      (∀ j, j < 2048 → (fbCell t.fb j ≠ fbCell s.fb j ↔ Reaches s x y n j)) ∧
      (t.reg VF = 0 ∨ t.reg VF = 1) ∧
      (t.reg VF = 1 ↔ ∃ j, j < 2048 ∧ Reaches s x y n j ∧ fbCell s.fb j = true)

/-- The same sprite drawn twice at the same place restores the frame buffer, and the second draw's VF
is the collision with the first (R212, example of the document; x and y not VF, which a draw writes). -/
def Obligations.DrawingTwiceRestoresTheScreen : Prop :=
  ∀ (x y : Reg) (n : Nibble) (s : State), x ≠ VF → y ≠ VF → s.InRange n.toNat →
    ∃ t u, exec (.drw x y n) s = .next t ∧ exec (.drw x y n) t = .next u ∧ u.fb = s.fb ∧
      (u.reg VF = 1 ↔ ∃ j, j < 2048 ∧ Reaches s x y n j ∧ fbCell s.fb j = false)

/-- The two draw modes agree on every draw that crosses neither the right nor the bottom edge (R213). -/
def Obligations.DrawModesAgreeInsideTheEdges : Prop :=
  ∀ (x y : Reg) (n : Nibble) (s : State) (m : DrawMode),
    (s.reg x).toNat % 64 ≤ 56 → (s.reg y).toNat % 32 + n.toNat ≤ 32 →
    exec (.drw x y n) { s with params := { s.params with drawMode := m } } =
      mapNext (fun t => { t with params := { s.params with drawMode := m } }) (exec (.drw x y n) s)

/-! ### Keys and timers (spec/45_keys_timers.md) -/

/-- `Ex9E` and `ExA1` with a key number in Vx skip when that key is, or is not, pressed, and change
nothing else (R231, R232; above 15 they fault: `InstructionsFaultExactlyWhenListed`). -/
def Obligations.KeySkips : Prop :=
  ∀ (x : Reg) (k : Fin 16) (s : State), (s.reg x).toNat = k.val →
    (∃ t, exec (.skp x) s = .next t ∧ OnlyCounter s t ∧
      t.pc = if s.key k = true then s.pc + 2 else s.pc) ∧
    ∃ t, exec (.sknp x) s = .next t ∧ OnlyCounter s t ∧
      t.pc = if s.key k = true then s.pc else s.pc + 2

/-- `Fx0A` writes the least pressed key to Vx; with no key pressed it takes `pc` back by 2, so that the
whole cycle leaves `pc` where it was, while the timers decay (R234, R126) and this cycle's inputs are
taken (the model's choice, log 1). -/
def Obligations.KeyWaitTakesTheLeastKeyOrPolls : Prop :=
  (∀ (x : Reg) (k : Fin 16) (s : State), s.key k = true → (∀ j, j < k → s.key j = false) →
    ∃ t, exec (.ldVxK x) s = .next t ∧ OnlyRegisters (· = x) s t ∧ (t.reg x).toNat = k.val) ∧
  (∀ (x : Reg) (s : State), (∀ k, s.key k = false) →
    ∃ t, exec (.ldVxK x) s = .next t ∧ OnlyCounter s t ∧ t.pc = s.pc - 2) ∧
  ∀ (x : Reg) (s : State), s.Ready → decodeWord s.params s.opcode = .ldVxK x →
    (∀ k, s.key k = false) → step s = .next (afterDecay s)

/-- `Fx07` reads `DT` as the previous cycle left it, `Fx15` and `Fx18` set the timers; at the end of the
same cycle the timer is one lower, and not below 0 (R233, R235, R236). -/
def Obligations.TimerMoves : Prop :=
  ∀ (x : Reg) (s : State),
    (∃ t, exec (.ldVxDt x) s = .next t ∧ OnlyRegisters (· = x) s t ∧ t.reg x = s.dt ∧
      (s.status = .running → ∃ u, finishCycle (exec (.ldVxDt x) s) = .next u ∧
        u.reg x = s.dt ∧ u.dt.toNat = s.dt.toNat - 1)) ∧
    (∃ t, exec (.ldDtVx x) s = .next t ∧ t = { s with dt := s.reg x } ∧
      (s.status = .running → ∃ u, finishCycle (exec (.ldDtVx x) s) = .next u ∧
        u.dt.toNat = (s.reg x).toNat - 1)) ∧
    ∃ t, exec (.ldStVx x) s = .next t ∧ t = { s with st := s.reg x } ∧
      (s.status = .running → ∃ u, finishCycle (exec (.ldStVx x) s) = .next u ∧
        u.st.toNat = (s.reg x).toNat - 1)

/-! ### Reset and initialisation (spec/70_reset_and_hazards.md) -/

/-- What reset leaves (spec/10_state.md R38): running; `pc` 0x200 and `SP` 0, which the spec derives
(D14, D3; DEDUCED, log 6); zeros by the spec's decision D13 (DESIGN CHOICE, logs 4, 5); at `FONT_BASE`
the default glyph table of R291, general knowledge by D9 (PRESUMED, log 3). -/
def Obligations.ResetLeavesTheSpecsValues : Prop :=
  State.reset.pc = 0x200 ∧ State.reset.sp = 0 ∧ State.reset.status = .running ∧
  (∀ r, State.reset.reg r = 0) ∧ State.reset.i = 0 ∧ State.reset.dt = 0 ∧ State.reset.st = 0 ∧
  (∀ k : Fin 16, State.reset.stack[k] = 0) ∧ (∀ j, fbCell State.reset.fb j = false) ∧
  (∀ k : Fin 80, State.reset.readByte (Config.fontBase.val + k.val) = defaultGlyphs[k]) ∧
  ∀ a, (a < Config.fontBase.val ∨ Config.fontBase.val + 80 ≤ a) → State.reset.readByte a = 0

/-- A program of at most 3584 bytes is copied verbatim from 0x200 on and nothing else changes (R292); a
longer one leaves the machine without a step (R293; the spec's decision D21, log 17). -/
def Obligations.ProgramLoadCopiesOrFails : Prop :=
  (∀ (s : State) (program : List Byte), s.mem.wf (Memory.unlisted s.params) →
    program.length ≤ 3584 →
    OnlyBytes 0x200 program.length s (s.loadProgram program) ∧
    ∀ (k : Nat) (h : k < program.length),
      (s.loadProgram program).readByte (0x200 + k) = program[k]) ∧
  ∀ (s : State) (program : List Byte), 3584 < program.length →
    (s.loadProgram program).status = .loadFailed program.length ∧
    step (s.loadProgram program) = .fault .stuckAfterLoadError
end

