-- ==== Sys2Proof/Laws/Decode.lean ====
section
/-!
SUPPORT. The fields of a word written as its parts, the rows of the opcode map in terms of the fields,
and what the decoder makes of a value that is in no row.
-/

namespace Sys2Proof

/-! ### The fields of a word put together from nibbles -/

@[simp] theorem fieldG_xnn (g x : Nibble) (b : Byte) : fieldG (g ++ x ++ b) = g := by
  refine BitVec.eq_of_getLsbD_eq fun i hi => ?_
  simp only [fieldG, BitVec.getLsbD_extractLsb', BitVec.getLsbD_append]
  interval_cases i <;> simp

@[simp] theorem fieldXBits_xnn (g x : Nibble) (b : Byte) : fieldXBits (g ++ x ++ b) = x := by
  refine BitVec.eq_of_getLsbD_eq fun i hi => ?_
  simp only [fieldXBits, BitVec.getLsbD_extractLsb', BitVec.getLsbD_append]
  interval_cases i <;> simp

@[simp] theorem fieldNN_xnn (g x : Nibble) (b : Byte) : fieldNN (g ++ x ++ b) = b := by
  refine BitVec.eq_of_getLsbD_eq fun i hi => ?_
  simp only [fieldNN, BitVec.getLsbD_extractLsb', BitVec.getLsbD_append]
  interval_cases i <;> simp

@[simp] theorem fieldG_nnn (g : Nibble) (a : Addr) : fieldG (g ++ a) = g := by
  refine BitVec.eq_of_getLsbD_eq fun i hi => ?_
  simp only [fieldG, BitVec.getLsbD_extractLsb', BitVec.getLsbD_append]
  interval_cases i <;> simp

@[simp] theorem fieldNNN_nnn (g : Nibble) (a : Addr) : fieldNNN (g ++ a) = a := by
  refine BitVec.eq_of_getLsbD_eq fun i hi => ?_
  simp only [fieldNNN, BitVec.getLsbD_extractLsb', BitVec.getLsbD_append]
  interval_cases i <;> simp

@[simp] theorem fieldG_xyn (g x y n : Nibble) : fieldG (g ++ x ++ y ++ n) = g := by
  refine BitVec.eq_of_getLsbD_eq fun i hi => ?_
  simp only [fieldG, BitVec.getLsbD_extractLsb', BitVec.getLsbD_append]
  interval_cases i <;> simp

@[simp] theorem fieldXBits_xyn (g x y n : Nibble) : fieldXBits (g ++ x ++ y ++ n) = x := by
  refine BitVec.eq_of_getLsbD_eq fun i hi => ?_
  simp only [fieldXBits, BitVec.getLsbD_extractLsb', BitVec.getLsbD_append]
  interval_cases i <;> simp

theorem yBits_xyn (g x y n : Nibble) :
    BitVec.extractLsb' 4 4 (g ++ x ++ y ++ n : Word) = y := by
  refine BitVec.eq_of_getLsbD_eq fun i hi => ?_
  simp only [BitVec.getLsbD_extractLsb', BitVec.getLsbD_append]
  interval_cases i <;> simp

@[simp] theorem fieldY_xyn (g x y n : Nibble) : fieldY (g ++ x ++ y ++ n) = y.toFin :=
  congrArg BitVec.toFin (yBits_xyn g x y n)

@[simp] theorem fieldN_xyn (g x y n : Nibble) : fieldN (g ++ x ++ y ++ n) = n := by
  refine BitVec.eq_of_getLsbD_eq fun i hi => ?_
  simp only [fieldN, BitVec.getLsbD_extractLsb', BitVec.getLsbD_append]
  interval_cases i <;> simp

@[simp] theorem fieldX_xnn (g x : Nibble) (b : Byte) : fieldX (g ++ x ++ b) = x.toFin :=
  congrArg BitVec.toFin (fieldXBits_xnn g x b)

@[simp] theorem fieldX_xyn (g x y n : Nibble) : fieldX (g ++ x ++ y ++ n) = x.toFin :=
  congrArg BitVec.toFin (fieldXBits_xyn g x y n)

@[simp] theorem toFin_regBits (r : Reg) : (regBits r).toFin = r := rfl

@[simp] theorem regBits_fieldX (op : Word) : regBits (fieldX op) = fieldXBits op := rfl

@[simp] theorem regBits_fieldY (op : Word) : regBits (fieldY op) = op.extractLsb' 4 4 := rfl

/-! ### A word is its fields -/

theorem word_xnn (op : Word) : fieldG op ++ fieldXBits op ++ fieldNN op = op := by
  refine BitVec.eq_of_getLsbD_eq fun i hi => ?_
  simp only [fieldG, fieldXBits, fieldNN, BitVec.getLsbD_extractLsb', BitVec.getLsbD_append]
  interval_cases i <;> simp

theorem word_nnn (op : Word) : fieldG op ++ fieldNNN op = op := by
  refine BitVec.eq_of_getLsbD_eq fun i hi => ?_
  simp only [fieldG, fieldNNN, BitVec.getLsbD_extractLsb', BitVec.getLsbD_append]
  interval_cases i <;> simp

theorem word_xyn (op : Word) :
    fieldG op ++ fieldXBits op ++ op.extractLsb' 4 4 ++ fieldN op = op := by
  refine BitVec.eq_of_getLsbD_eq fun i hi => ?_
  simp only [fieldG, fieldXBits, fieldN, BitVec.getLsbD_extractLsb', BitVec.getLsbD_append]
  interval_cases i <;> simp

theorem composeOpcode_bytes (op : Word) :
    composeOpcode (op.extractLsb' 8 8) (op.extractLsb' 0 8) = op := by
  refine BitVec.eq_of_getLsbD_eq fun i hi => ?_
  simp only [composeOpcode, BitVec.getLsbD_extractLsb', BitVec.getLsbD_append]
  interval_cases i <;> simp

/-- Two bytes of a word decode to that word's instruction. -/
theorem decode_wordBytes (p : Config.Params) (op : Word) (rest : List Byte) :
    decode p (wordBytes op ++ rest) = .ok (decodeWord p op, rest) := by
  simp only [wordBytes, List.cons_append, List.nil_append, decode, composeOpcode_bytes]

/-! ### The rows of the opcode map in terms of the fields -/

theorem and_F000 (op : Word) : op &&& 0xF000#16 = fieldG op ++ 0#12 := by
  refine BitVec.eq_of_getLsbD_eq fun i hi => ?_
  simp only [fieldG, BitVec.getLsbD_extractLsb', BitVec.getLsbD_append, BitVec.getLsbD_and]
  interval_cases i <;> simp

theorem and_F0FF (op : Word) : op &&& 0xF0FF#16 = fieldG op ++ 0#4 ++ fieldNN op := by
  refine BitVec.eq_of_getLsbD_eq fun i hi => ?_
  simp only [fieldG, fieldNN, BitVec.getLsbD_extractLsb', BitVec.getLsbD_append, BitVec.getLsbD_and]
  interval_cases i <;> simp

theorem and_F00F (op : Word) : op &&& 0xF00F#16 = fieldG op ++ 0#8 ++ fieldN op := by
  refine BitVec.eq_of_getLsbD_eq fun i hi => ?_
  simp only [fieldG, fieldN, BitVec.getLsbD_extractLsb', BitVec.getLsbD_append, BitVec.getLsbD_and]
  interval_cases i <;> simp

theorem append_left_right {m n : Nat} {a c : BitVec m} {b d : BitVec n} :
    a ++ b = c ++ d ↔ a = c ∧ b = d := by
  constructor
  · intro h
    constructor
    · ext i hi
      have := congrArg (·.getLsbD (n + i)) h
      simpa [BitVec.getLsbD_append, ← BitVec.getLsbD_eq_getElem] using this
    · ext i hi
      have := congrArg (·.getLsbD i) h
      simpa [BitVec.getLsbD_append, hi, ← BitVec.getLsbD_eq_getElem] using this
  · rintro ⟨rfl, rfl⟩; rfl

/-- A row with mask 0xF000 is a group. -/
theorem hits_F000 (op : Word) (g : Nibble) :
    OpcodeRow.hits { pattern := g ++ 0#12, mask := 0xF000 } op = true ↔ fieldG op = g := by
  simp only [OpcodeRow.hits, beq_iff_eq]
  rw [show op &&& 0xF000 = fieldG op ++ 0#12 from and_F000 op, append_left_right]
  simp

/-- A row with mask 0xF0FF is a group and a low byte. -/
theorem hits_F0FF (op : Word) (g : Nibble) (b : Byte) :
    OpcodeRow.hits { pattern := g ++ 0#4 ++ b, mask := 0xF0FF } op = true ↔
      fieldG op = g ∧ fieldNN op = b := by
  simp only [OpcodeRow.hits, beq_iff_eq]
  rw [show op &&& 0xF0FF = fieldG op ++ 0#4 ++ fieldNN op from and_F0FF op, append_left_right,
    append_left_right]
  simp

/-- A row with mask 0xFFFF, bits 11:8 zero, is a group, those bits and a low byte. -/
theorem hits_FFFF (op : Word) (g : Nibble) (b : Byte) :
    OpcodeRow.hits { pattern := g ++ 0#4 ++ b, mask := 0xFFFF } op = true ↔
      fieldG op = g ∧ fieldXBits op = 0 ∧ fieldNN op = b := by
  simp only [OpcodeRow.hits, beq_iff_eq]
  rw [show op &&& 0xFFFF = op by ext i hi; interval_cases i <;> simp, ← word_xnn op,
    append_left_right, append_left_right]
  simp [and_assoc]

/-- A row with mask 0xF00F is a group and a low nibble. -/
theorem hits_F00F (op : Word) (g n : Nibble) :
    OpcodeRow.hits { pattern := g ++ 0#8 ++ n, mask := 0xF00F } op = true ↔
      fieldG op = g ∧ fieldN op = n := by
  simp only [OpcodeRow.hits, beq_iff_eq]
  rw [show op &&& 0xF00F = fieldG op ++ 0#8 ++ fieldN op from and_F00F op, append_left_right,
    append_left_right]
  simp

end Sys2Proof
end

