-- ==== Sys2Proof/Laws/State.lean ====
section
/-!
SUPPORT. What each named update of the state leaves in each field, true by definition, and what the
register read sees of it.
-/

namespace Sys2Proof.Machine.State

variable (s : State)

/-! ### setReg -/

@[simp] theorem setReg_v (r : Reg) (b : Byte) : (s.setReg r b).v = s.v.set r b := rfl
@[simp] theorem setReg_i (r : Reg) (b : Byte) : (s.setReg r b).i = s.i := rfl
@[simp] theorem setReg_pc (r : Reg) (b : Byte) : (s.setReg r b).pc = s.pc := rfl
@[simp] theorem setReg_sp (r : Reg) (b : Byte) : (s.setReg r b).sp = s.sp := rfl
@[simp] theorem setReg_stack (r : Reg) (b : Byte) : (s.setReg r b).stack = s.stack := rfl
@[simp] theorem setReg_dt (r : Reg) (b : Byte) : (s.setReg r b).dt = s.dt := rfl
@[simp] theorem setReg_st (r : Reg) (b : Byte) : (s.setReg r b).st = s.st := rfl
@[simp] theorem setReg_mem (r : Reg) (b : Byte) : (s.setReg r b).mem = s.mem := rfl
@[simp] theorem setReg_fb (r : Reg) (b : Byte) : (s.setReg r b).fb = s.fb := rfl
@[simp] theorem setReg_status (r : Reg) (b : Byte) : (s.setReg r b).status = s.status := rfl
@[simp] theorem setReg_params (r : Reg) (b : Byte) : (s.setReg r b).params = s.params := rfl
@[simp] theorem setReg_inputs (r : Reg) (b : Byte) : (s.setReg r b).inputs = s.inputs := rfl
@[simp] theorem setReg_inputNo (r : Reg) (b : Byte) : (s.setReg r b).inputNo = s.inputNo := rfl

/-! ### setI -/

@[simp] theorem setI_v (w : Word) : (s.setI w).v = s.v := rfl
@[simp] theorem setI_i (w : Word) : (s.setI w).i = w := rfl
@[simp] theorem setI_pc (w : Word) : (s.setI w).pc = s.pc := rfl
@[simp] theorem setI_sp (w : Word) : (s.setI w).sp = s.sp := rfl
@[simp] theorem setI_stack (w : Word) : (s.setI w).stack = s.stack := rfl
@[simp] theorem setI_dt (w : Word) : (s.setI w).dt = s.dt := rfl
@[simp] theorem setI_st (w : Word) : (s.setI w).st = s.st := rfl
@[simp] theorem setI_mem (w : Word) : (s.setI w).mem = s.mem := rfl
@[simp] theorem setI_fb (w : Word) : (s.setI w).fb = s.fb := rfl
@[simp] theorem setI_status (w : Word) : (s.setI w).status = s.status := rfl
@[simp] theorem setI_params (w : Word) : (s.setI w).params = s.params := rfl
@[simp] theorem setI_inputs (w : Word) : (s.setI w).inputs = s.inputs := rfl
@[simp] theorem setI_inputNo (w : Word) : (s.setI w).inputNo = s.inputNo := rfl

/-! ### setPc -/

@[simp] theorem setPc_v (w : Word) : (s.setPc w).v = s.v := rfl
@[simp] theorem setPc_i (w : Word) : (s.setPc w).i = s.i := rfl
@[simp] theorem setPc_pc (w : Word) : (s.setPc w).pc = w := rfl
@[simp] theorem setPc_sp (w : Word) : (s.setPc w).sp = s.sp := rfl
@[simp] theorem setPc_stack (w : Word) : (s.setPc w).stack = s.stack := rfl
@[simp] theorem setPc_dt (w : Word) : (s.setPc w).dt = s.dt := rfl
@[simp] theorem setPc_st (w : Word) : (s.setPc w).st = s.st := rfl
@[simp] theorem setPc_mem (w : Word) : (s.setPc w).mem = s.mem := rfl
@[simp] theorem setPc_fb (w : Word) : (s.setPc w).fb = s.fb := rfl
@[simp] theorem setPc_status (w : Word) : (s.setPc w).status = s.status := rfl
@[simp] theorem setPc_params (w : Word) : (s.setPc w).params = s.params := rfl
@[simp] theorem setPc_inputs (w : Word) : (s.setPc w).inputs = s.inputs := rfl
@[simp] theorem setPc_inputNo (w : Word) : (s.setPc w).inputNo = s.inputNo := rfl

/-! ### setDt -/

@[simp] theorem setDt_v (b : Byte) : (s.setDt b).v = s.v := rfl
@[simp] theorem setDt_i (b : Byte) : (s.setDt b).i = s.i := rfl
@[simp] theorem setDt_pc (b : Byte) : (s.setDt b).pc = s.pc := rfl
@[simp] theorem setDt_sp (b : Byte) : (s.setDt b).sp = s.sp := rfl
@[simp] theorem setDt_stack (b : Byte) : (s.setDt b).stack = s.stack := rfl
@[simp] theorem setDt_dt (b : Byte) : (s.setDt b).dt = b := rfl
@[simp] theorem setDt_st (b : Byte) : (s.setDt b).st = s.st := rfl
@[simp] theorem setDt_mem (b : Byte) : (s.setDt b).mem = s.mem := rfl
@[simp] theorem setDt_fb (b : Byte) : (s.setDt b).fb = s.fb := rfl
@[simp] theorem setDt_status (b : Byte) : (s.setDt b).status = s.status := rfl
@[simp] theorem setDt_params (b : Byte) : (s.setDt b).params = s.params := rfl
@[simp] theorem setDt_inputs (b : Byte) : (s.setDt b).inputs = s.inputs := rfl
@[simp] theorem setDt_inputNo (b : Byte) : (s.setDt b).inputNo = s.inputNo := rfl

/-! ### setSt -/

@[simp] theorem setSt_v (b : Byte) : (s.setSt b).v = s.v := rfl
@[simp] theorem setSt_i (b : Byte) : (s.setSt b).i = s.i := rfl
@[simp] theorem setSt_pc (b : Byte) : (s.setSt b).pc = s.pc := rfl
@[simp] theorem setSt_sp (b : Byte) : (s.setSt b).sp = s.sp := rfl
@[simp] theorem setSt_stack (b : Byte) : (s.setSt b).stack = s.stack := rfl
@[simp] theorem setSt_dt (b : Byte) : (s.setSt b).dt = s.dt := rfl
@[simp] theorem setSt_st (b : Byte) : (s.setSt b).st = b := rfl
@[simp] theorem setSt_mem (b : Byte) : (s.setSt b).mem = s.mem := rfl
@[simp] theorem setSt_fb (b : Byte) : (s.setSt b).fb = s.fb := rfl
@[simp] theorem setSt_status (b : Byte) : (s.setSt b).status = s.status := rfl
@[simp] theorem setSt_params (b : Byte) : (s.setSt b).params = s.params := rfl
@[simp] theorem setSt_inputs (b : Byte) : (s.setSt b).inputs = s.inputs := rfl
@[simp] theorem setSt_inputNo (b : Byte) : (s.setSt b).inputNo = s.inputNo := rfl

/-! ### setFb -/

@[simp] theorem setFb_v (f : FrameBuffer) : (s.setFb f).v = s.v := rfl
@[simp] theorem setFb_i (f : FrameBuffer) : (s.setFb f).i = s.i := rfl
@[simp] theorem setFb_pc (f : FrameBuffer) : (s.setFb f).pc = s.pc := rfl
@[simp] theorem setFb_sp (f : FrameBuffer) : (s.setFb f).sp = s.sp := rfl
@[simp] theorem setFb_stack (f : FrameBuffer) : (s.setFb f).stack = s.stack := rfl
@[simp] theorem setFb_dt (f : FrameBuffer) : (s.setFb f).dt = s.dt := rfl
@[simp] theorem setFb_st (f : FrameBuffer) : (s.setFb f).st = s.st := rfl
@[simp] theorem setFb_mem (f : FrameBuffer) : (s.setFb f).mem = s.mem := rfl
@[simp] theorem setFb_fb (f : FrameBuffer) : (s.setFb f).fb = f := rfl
@[simp] theorem setFb_status (f : FrameBuffer) : (s.setFb f).status = s.status := rfl
@[simp] theorem setFb_params (f : FrameBuffer) : (s.setFb f).params = s.params := rfl
@[simp] theorem setFb_inputs (f : FrameBuffer) : (s.setFb f).inputs = s.inputs := rfl
@[simp] theorem setFb_inputNo (f : FrameBuffer) : (s.setFb f).inputNo = s.inputNo := rfl

/-! ### advance -/

@[simp] theorem advance_v : (s.advance).v = s.v := rfl
@[simp] theorem advance_i : (s.advance).i = s.i := rfl
@[simp] theorem advance_pc : (s.advance).pc = s.pc + 2 := rfl
@[simp] theorem advance_sp : (s.advance).sp = s.sp := rfl
@[simp] theorem advance_stack : (s.advance).stack = s.stack := rfl
@[simp] theorem advance_dt : (s.advance).dt = s.dt := rfl
@[simp] theorem advance_st : (s.advance).st = s.st := rfl
@[simp] theorem advance_mem : (s.advance).mem = s.mem := rfl
@[simp] theorem advance_fb : (s.advance).fb = s.fb := rfl
@[simp] theorem advance_status : (s.advance).status = s.status := rfl
@[simp] theorem advance_params : (s.advance).params = s.params := rfl
@[simp] theorem advance_inputs : (s.advance).inputs = s.inputs := rfl
@[simp] theorem advance_inputNo : (s.advance).inputNo = s.inputNo := rfl

/-! ### rewind -/

@[simp] theorem rewind_v : (s.rewind).v = s.v := rfl
@[simp] theorem rewind_i : (s.rewind).i = s.i := rfl
@[simp] theorem rewind_pc : (s.rewind).pc = s.pc - 2 := rfl
@[simp] theorem rewind_sp : (s.rewind).sp = s.sp := rfl
@[simp] theorem rewind_stack : (s.rewind).stack = s.stack := rfl
@[simp] theorem rewind_dt : (s.rewind).dt = s.dt := rfl
@[simp] theorem rewind_st : (s.rewind).st = s.st := rfl
@[simp] theorem rewind_mem : (s.rewind).mem = s.mem := rfl
@[simp] theorem rewind_fb : (s.rewind).fb = s.fb := rfl
@[simp] theorem rewind_status : (s.rewind).status = s.status := rfl
@[simp] theorem rewind_params : (s.rewind).params = s.params := rfl
@[simp] theorem rewind_inputs : (s.rewind).inputs = s.inputs := rfl
@[simp] theorem rewind_inputNo : (s.rewind).inputNo = s.inputNo := rfl

/-! ### push -/

@[simp] theorem push_v (w : Word) : (s.push w).v = s.v := rfl
@[simp] theorem push_i (w : Word) : (s.push w).i = s.i := rfl
@[simp] theorem push_pc (w : Word) : (s.push w).pc = s.pc := rfl
@[simp] theorem push_sp (w : Word) : (s.push w).sp = s.sp + 1 := rfl
@[simp] theorem push_stack (w : Word) : (s.push w).stack = s.stack.set (s.sp + 1 : Fin 16) w := rfl
@[simp] theorem push_dt (w : Word) : (s.push w).dt = s.dt := rfl
@[simp] theorem push_st (w : Word) : (s.push w).st = s.st := rfl
@[simp] theorem push_mem (w : Word) : (s.push w).mem = s.mem := rfl
@[simp] theorem push_fb (w : Word) : (s.push w).fb = s.fb := rfl
@[simp] theorem push_status (w : Word) : (s.push w).status = s.status := rfl
@[simp] theorem push_params (w : Word) : (s.push w).params = s.params := rfl
@[simp] theorem push_inputs (w : Word) : (s.push w).inputs = s.inputs := rfl
@[simp] theorem push_inputNo (w : Word) : (s.push w).inputNo = s.inputNo := rfl

/-! ### pop -/

@[simp] theorem pop_v : (s.pop).v = s.v := rfl
@[simp] theorem pop_i : (s.pop).i = s.i := rfl
@[simp] theorem pop_pc : (s.pop).pc = s.pc := rfl
@[simp] theorem pop_sp : (s.pop).sp = s.sp - 1 := rfl
@[simp] theorem pop_stack : (s.pop).stack = s.stack := rfl
@[simp] theorem pop_dt : (s.pop).dt = s.dt := rfl
@[simp] theorem pop_st : (s.pop).st = s.st := rfl
@[simp] theorem pop_mem : (s.pop).mem = s.mem := rfl
@[simp] theorem pop_fb : (s.pop).fb = s.fb := rfl
@[simp] theorem pop_status : (s.pop).status = s.status := rfl
@[simp] theorem pop_params : (s.pop).params = s.params := rfl
@[simp] theorem pop_inputs : (s.pop).inputs = s.inputs := rfl
@[simp] theorem pop_inputNo : (s.pop).inputNo = s.inputNo := rfl

/-! ### nextInput -/

@[simp] theorem nextInput_v : (s.nextInput).v = s.v := rfl
@[simp] theorem nextInput_i : (s.nextInput).i = s.i := rfl
@[simp] theorem nextInput_pc : (s.nextInput).pc = s.pc := rfl
@[simp] theorem nextInput_sp : (s.nextInput).sp = s.sp := rfl
@[simp] theorem nextInput_stack : (s.nextInput).stack = s.stack := rfl
@[simp] theorem nextInput_dt : (s.nextInput).dt = s.dt := rfl
@[simp] theorem nextInput_st : (s.nextInput).st = s.st := rfl
@[simp] theorem nextInput_mem : (s.nextInput).mem = s.mem := rfl
@[simp] theorem nextInput_fb : (s.nextInput).fb = s.fb := rfl
@[simp] theorem nextInput_status : (s.nextInput).status = s.status := rfl
@[simp] theorem nextInput_params : (s.nextInput).params = s.params := rfl
@[simp] theorem nextInput_inputs : (s.nextInput).inputs = s.inputs.tail := rfl
@[simp] theorem nextInput_inputNo : (s.nextInput).inputNo = s.inputNo + 1 := rfl

/-! ### enterFault -/

@[simp] theorem enterFault_v (c : FaultCause) (o : Option Word) : (s.enterFault c o).v = s.v := rfl
@[simp] theorem enterFault_i (c : FaultCause) (o : Option Word) : (s.enterFault c o).i = s.i := rfl
@[simp] theorem enterFault_pc (c : FaultCause) (o : Option Word) : (s.enterFault c o).pc = s.pc := rfl
@[simp] theorem enterFault_sp (c : FaultCause) (o : Option Word) : (s.enterFault c o).sp = s.sp := rfl
@[simp] theorem enterFault_stack (c : FaultCause) (o : Option Word) : (s.enterFault c o).stack = s.stack := rfl
@[simp] theorem enterFault_dt (c : FaultCause) (o : Option Word) : (s.enterFault c o).dt = s.dt := rfl
@[simp] theorem enterFault_st (c : FaultCause) (o : Option Word) : (s.enterFault c o).st = s.st := rfl
@[simp] theorem enterFault_mem (c : FaultCause) (o : Option Word) : (s.enterFault c o).mem = s.mem := rfl
@[simp] theorem enterFault_fb (c : FaultCause) (o : Option Word) : (s.enterFault c o).fb = s.fb := rfl
@[simp] theorem enterFault_status (c : FaultCause) (o : Option Word) : (s.enterFault c o).status = .faulted { cause := c, pc0 := s.pc, op := o } := rfl
@[simp] theorem enterFault_params (c : FaultCause) (o : Option Word) : (s.enterFault c o).params = s.params := rfl
@[simp] theorem enterFault_inputs (c : FaultCause) (o : Option Word) : (s.enterFault c o).inputs = s.inputs := rfl
@[simp] theorem enterFault_inputNo (c : FaultCause) (o : Option Word) : (s.enterFault c o).inputNo = s.inputNo := rfl

/-! ### raise -/

@[simp] theorem raise_v (c : FaultCause) (o : Word) : (s.raise c o).v = s.v := rfl
@[simp] theorem raise_i (c : FaultCause) (o : Word) : (s.raise c o).i = s.i := rfl
@[simp] theorem raise_pc (c : FaultCause) (o : Word) : (s.raise c o).pc = s.pc - 2 := rfl
@[simp] theorem raise_sp (c : FaultCause) (o : Word) : (s.raise c o).sp = s.sp := rfl
@[simp] theorem raise_stack (c : FaultCause) (o : Word) : (s.raise c o).stack = s.stack := rfl
@[simp] theorem raise_dt (c : FaultCause) (o : Word) : (s.raise c o).dt = s.dt := rfl
@[simp] theorem raise_st (c : FaultCause) (o : Word) : (s.raise c o).st = s.st := rfl
@[simp] theorem raise_mem (c : FaultCause) (o : Word) : (s.raise c o).mem = s.mem := rfl
@[simp] theorem raise_fb (c : FaultCause) (o : Word) : (s.raise c o).fb = s.fb := rfl
@[simp] theorem raise_status (c : FaultCause) (o : Word) : (s.raise c o).status = .faulted { cause := c, pc0 := s.pc - 2, op := some o } := rfl
@[simp] theorem raise_params (c : FaultCause) (o : Word) : (s.raise c o).params = s.params := rfl
@[simp] theorem raise_inputs (c : FaultCause) (o : Word) : (s.raise c o).inputs = s.inputs := rfl
@[simp] theorem raise_inputNo (c : FaultCause) (o : Word) : (s.raise c o).inputNo = s.inputNo := rfl

/-! ### decay -/

@[simp] theorem decay_v : (s.decay).v = s.v := rfl
@[simp] theorem decay_i : (s.decay).i = s.i := rfl
@[simp] theorem decay_pc : (s.decay).pc = s.pc := rfl
@[simp] theorem decay_sp : (s.decay).sp = s.sp := rfl
@[simp] theorem decay_stack : (s.decay).stack = s.stack := rfl
@[simp] theorem decay_dt : (s.decay).dt = State.decayed s.dt := rfl
@[simp] theorem decay_st : (s.decay).st = State.decayed s.st := rfl
@[simp] theorem decay_mem : (s.decay).mem = s.mem := rfl
@[simp] theorem decay_fb : (s.decay).fb = s.fb := rfl
@[simp] theorem decay_status : (s.decay).status = s.status := rfl
@[simp] theorem decay_params : (s.decay).params = s.params := rfl
@[simp] theorem decay_inputs : (s.decay).inputs = s.inputs := rfl
@[simp] theorem decay_inputNo : (s.decay).inputNo = s.inputNo := rfl

/-! ### What `reg`, `readByte` and `input` see -/

@[simp] theorem reg_setReg (r q : Reg) (b : Byte) :
    (s.setReg r b).reg q = if q = r then b else s.reg q := by
  simp only [reg, setReg, Fin.getElem_fin, Vector.getElem_set, Fin.val_inj]
  exact if_congr eq_comm rfl rfl

@[simp] theorem reg_setI (q : Reg) (w : Word) : (s.setI w).reg q = s.reg q := rfl
@[simp] theorem reg_setPc (q : Reg) (w : Word) : (s.setPc w).reg q = s.reg q := rfl
@[simp] theorem reg_setDt (q : Reg) (b : Byte) : (s.setDt b).reg q = s.reg q := rfl
@[simp] theorem reg_setSt (q : Reg) (b : Byte) : (s.setSt b).reg q = s.reg q := rfl
@[simp] theorem reg_setFb (q : Reg) (f : FrameBuffer) : (s.setFb f).reg q = s.reg q := rfl
@[simp] theorem reg_advance (q : Reg) : (s.advance).reg q = s.reg q := rfl
@[simp] theorem reg_rewind (q : Reg) : (s.rewind).reg q = s.reg q := rfl
@[simp] theorem reg_push (q : Reg) (w : Word) : (s.push w).reg q = s.reg q := rfl
@[simp] theorem reg_pop (q : Reg) : (s.pop).reg q = s.reg q := rfl
@[simp] theorem reg_nextInput (q : Reg) : (s.nextInput).reg q = s.reg q := rfl
@[simp] theorem reg_enterFault (q : Reg) (c : FaultCause) (o : Option Word) : (s.enterFault c o).reg q = s.reg q := rfl
@[simp] theorem reg_raise (q : Reg) (c : FaultCause) (o : Word) : (s.raise c o).reg q = s.reg q := rfl
@[simp] theorem reg_decay (q : Reg) : (s.decay).reg q = s.reg q := rfl

@[simp] theorem readByte_setReg (a : Nat) (r : Reg) (b : Byte) : (s.setReg r b).readByte a = s.readByte a := rfl
@[simp] theorem readByte_setI (a : Nat) (w : Word) : (s.setI w).readByte a = s.readByte a := rfl
@[simp] theorem readByte_setPc (a : Nat) (w : Word) : (s.setPc w).readByte a = s.readByte a := rfl
@[simp] theorem readByte_setDt (a : Nat) (b : Byte) : (s.setDt b).readByte a = s.readByte a := rfl
@[simp] theorem readByte_setSt (a : Nat) (b : Byte) : (s.setSt b).readByte a = s.readByte a := rfl
@[simp] theorem readByte_setFb (a : Nat) (f : FrameBuffer) : (s.setFb f).readByte a = s.readByte a := rfl
@[simp] theorem readByte_advance (a : Nat) : (s.advance).readByte a = s.readByte a := rfl
@[simp] theorem readByte_rewind (a : Nat) : (s.rewind).readByte a = s.readByte a := rfl
@[simp] theorem readByte_push (a : Nat) (w : Word) : (s.push w).readByte a = s.readByte a := rfl
@[simp] theorem readByte_pop (a : Nat) : (s.pop).readByte a = s.readByte a := rfl
@[simp] theorem readByte_nextInput (a : Nat) : (s.nextInput).readByte a = s.readByte a := rfl
@[simp] theorem readByte_enterFault (a : Nat) (c : FaultCause) (o : Option Word) : (s.enterFault c o).readByte a = s.readByte a := rfl
@[simp] theorem readByte_raise (a : Nat) (c : FaultCause) (o : Word) : (s.raise c o).readByte a = s.readByte a := rfl
@[simp] theorem readByte_decay (a : Nat) : (s.decay).readByte a = s.readByte a := rfl

@[simp] theorem input_setReg (r : Reg) (b : Byte) : (s.setReg r b).input = s.input := rfl
@[simp] theorem input_setI (w : Word) : (s.setI w).input = s.input := rfl
@[simp] theorem input_setPc (w : Word) : (s.setPc w).input = s.input := rfl
@[simp] theorem input_setDt (b : Byte) : (s.setDt b).input = s.input := rfl
@[simp] theorem input_setSt (b : Byte) : (s.setSt b).input = s.input := rfl
@[simp] theorem input_setFb (f : FrameBuffer) : (s.setFb f).input = s.input := rfl
@[simp] theorem input_advance : (s.advance).input = s.input := rfl
@[simp] theorem input_rewind : (s.rewind).input = s.input := rfl
@[simp] theorem input_push (w : Word) : (s.push w).input = s.input := rfl
@[simp] theorem input_pop : (s.pop).input = s.input := rfl
@[simp] theorem input_enterFault (c : FaultCause) (o : Option Word) : (s.enterFault c o).input = s.input := rfl
@[simp] theorem input_raise (c : FaultCause) (o : Word) : (s.raise c o).input = s.input := rfl
@[simp] theorem input_decay : (s.decay).input = s.input := rfl

end Sys2Proof.Machine.State
end

