-- ==== Sys2Proof/Laws/Memory.lean ====
section
/-!
SUPPORT. The laws of memory: every operation keeps the canonical form, and a read after a write.
-/

namespace Sys2Proof.Machine

namespace Memory

variable {d : Nat → Byte}

/-- The addresses of `m` are above `a`. -/
abbrev Above (a : Nat) (m : Memory) : Prop := ∀ c ∈ m, a < c.1

theorem wf_nil : wf d [] := ⟨List.Pairwise.nil, fun _ h => absurd h List.not_mem_nil⟩

theorem wf_cons_iff {c : Host.Cell} {m : Memory} :
    wf d (c :: m) ↔ Above c.1 m ∧ (c.1 < Config.memSize ∧ c.2 ≠ d c.1) ∧ wf d m := by
  simp only [wf, List.pairwise_cons, List.forall_mem_cons]
  tauto

theorem wf_cons {c : Host.Cell} {m : Memory} (hm : wf d m) (ha : Above c.1 m)
    (hc : c.1 < Config.memSize) : wf d (cons d c m) := by
  unfold cons
  split
  · exact hm
  · exact wf_cons_iff.mpr ⟨ha, ⟨hc, ‹_›⟩, hm⟩

theorem above_cons {a : Nat} {c : Host.Cell} {m : Memory} (hm : Above a m) (hc : a < c.1) :
    Above a (cons d c m) := by
  unfold cons
  split
  · exact hm
  · exact List.forall_mem_cons.mpr ⟨hc, hm⟩

theorem above_set {a : Nat} {m : Memory} (hm : Above a m) (e : Nat) (b : Byte) (he : a < e) :
    Above a (set d m e b) := by
  induction m with
  | nil => exact above_cons hm he
  | cons c m ih =>
    have hm' := List.forall_mem_cons.mp hm
    simp only [set]
    split
    · exact above_cons hm he
    · split
      · exact above_cons hm'.2 he
      · exact List.forall_mem_cons.mpr ⟨hm'.1, ih hm'.2⟩

/-- A write keeps the canonical form. -/
theorem wf_set {m : Memory} (hm : wf d m) {a : Nat} (ha : a < Config.memSize) (b : Byte) :
    wf d (set d m a b) := by
  induction m with
  | nil => exact wf_cons hm (fun _ h => absurd h List.not_mem_nil) ha
  | cons c m ih =>
    obtain ⟨hab, hc, hm'⟩ := wf_cons_iff.mp hm
    simp only [set]
    split
    · refine wf_cons hm (List.forall_mem_cons.mpr ⟨‹_›, fun e he => ?_⟩) ha
      exact Nat.lt_trans ‹a < c.1› (hab e he)
    · split
      · subst a; exact wf_cons hm' hab ha
      · exact wf_cons_iff.mpr ⟨above_set hab a b (by omega), hc, ih hm'⟩

theorem get_of_above {m : Memory} {a : Nat} (hm : Above a m) : get d m a = d a := by
  induction m with
  | nil => rfl
  | cons c m ih =>
    have hm' := List.forall_mem_cons.mp hm
    simp only [get, Nat.ne_of_lt hm'.1, if_false]
    exact ih hm'.2

theorem get_cons {c : Host.Cell} {m : Memory} (hm : Above c.1 m) (a : Nat) :
    get d (cons d c m) a = if a = c.1 then c.2 else get d m a := by
  unfold cons
  split
  · split
    · subst a; rw [get_of_above hm, ‹c.2 = d c.1›]
    · rfl
  · rfl

/-- A read after a write: the byte written at its address, the old byte everywhere else. -/
theorem get_set {m : Memory} (hm : wf d m) (a : Nat) (b : Byte) (e : Nat) :
    get d (set d m a b) e = if e = a then b else get d m e := by
  induction m with
  | nil => exact get_cons (c := (a, b)) (fun _ h => absurd h List.not_mem_nil) e
  | cons c m ih =>
    obtain ⟨hab, -, hm'⟩ := wf_cons_iff.mp hm
    simp only [set]
    split
    · refine get_cons (c := (a, b)) (List.forall_mem_cons.mpr ⟨‹_›, fun e he => ?_⟩) e
      exact Nat.lt_trans ‹a < c.1› (hab e he)
    · split
      · subst a
        rw [get_cons (c := (c.1, b)) hab]
        simp only [get]
        split <;> rfl
      · simp only [get, ih hm']
        split
        · rw [if_neg (by omega)]
        · rfl

/-- A write leaves every other address alone, whatever the form of the memory. -/
theorem get_set_other {a e : Nat} (he : e ≠ a) (m : Memory) (b : Byte) :
    get d (set d m a b) e = get d m e := by
  have front (m : Memory) : get d (cons d (a, b) m) e = get d m e := by
    unfold cons
    split
    · rfl
    · simp only [get, if_neg he]
  induction m with
  | nil => exact front []
  | cons c m ih =>
    simp only [set]
    split
    · exact front (c :: m)
    · split
      · subst a; simp only [front, get, if_neg he]
      · simp only [get, ih]

end Memory

/-- What an unlisted address reads as above the reserved region: 0. -/
theorem Memory.unlisted_program (p : Config.Params) {a : Nat} (ha : Config.progBase ≤ a) :
    Memory.unlisted p a = 0 := by
  unfold Memory.unlisted; rw [if_neg (by omega)]

namespace State

/-- The memory of `s` is in its canonical form. -/
abbrev MemoryWf (s : State) : Prop := s.mem.wf (Memory.unlisted s.params)

theorem reset_memoryWf : reset.MemoryWf := Memory.wf_nil

theorem writeByte_of_lt (s : State) {a : Nat} (ha : a < Config.memSize) (b : Byte) :
    s.writeByte a b = { s with mem := s.mem.set (Memory.unlisted s.params) a b } := if_pos ha

/-- A byte store changes memory alone. -/
theorem writeByte_frame (s : State) (a : Nat) (b : Byte) :
    s.writeByte a b = { s with mem := (s.writeByte a b).mem } := by
  unfold writeByte; split <;> rfl

@[simp] theorem writeByte_params (s : State) (a : Nat) (b : Byte) :
    (s.writeByte a b).params = s.params := by rw [writeByte_frame]

theorem writeByte_memoryWf {s : State} (h : s.MemoryWf) (a : Nat) (b : Byte) :
    (s.writeByte a b).MemoryWf := by
  unfold writeByte
  split
  · exact Memory.wf_set h ‹_› b
  · exact h

theorem readByte_writeByte {s : State} (h : s.MemoryWf) {a : Nat} (ha : a < Config.memSize)
    (b : Byte) (e : Nat) : (s.writeByte a b).readByte e = if e = a then b else s.readByte e := by
  rw [writeByte_of_lt s ha]
  exact Memory.get_set h a b e

/-- A byte store leaves every other address alone, in any state. -/
theorem readByte_writeByte_other (s : State) {a e : Nat} (he : e ≠ a) (b : Byte) :
    (s.writeByte a b).readByte e = s.readByte e := by
  unfold writeByte
  split
  · exact Memory.get_set_other he s.mem b
  · rfl

/-- Storing a run of bytes leaves every address outside the run alone, in any state. -/
theorem readByte_writeBytes_outside (s : State) {a e : Nat} (bs : List Byte)
    (he : e < a ∨ a + bs.length ≤ e) : (s.writeBytes a bs).readByte e = s.readByte e := by
  induction bs generalizing s a with
  | nil => rfl
  | cons b bs ih =>
    simp only [List.length_cons] at he
    exact (ih _ (by omega)).trans (readByte_writeByte_other s (by omega) b)

/-- Storing a run of bytes changes memory alone. -/
theorem writeBytes_frame (s : State) (a : Nat) (bs : List Byte) :
    s.writeBytes a bs = { s with mem := (s.writeBytes a bs).mem } := by
  induction bs generalizing s a with
  | nil => rfl
  | cons b bs ih =>
    simp only [writeBytes]
    rw [ih, writeByte_frame]

@[simp] theorem writeBytes_params (s : State) (a : Nat) (bs : List Byte) :
    (s.writeBytes a bs).params = s.params := by rw [writeBytes_frame]

@[simp] theorem writeBytes_reg (s : State) (a : Nat) (bs : List Byte) (r : Reg) :
    (s.writeBytes a bs).reg r = s.reg r := by rw [writeBytes_frame]; rfl

theorem writeBytes_memoryWf {s : State} (h : s.MemoryWf) (a : Nat) (bs : List Byte) :
    (s.writeBytes a bs).MemoryWf := by
  induction bs generalizing s a with
  | nil => exact h
  | cons b bs ih => exact ih (writeByte_memoryWf h a b) (a + 1)

/-- A read after a run of bytes is stored: the byte of the run that stands there, the old byte outside
the run. -/
theorem readByte_writeBytes {s : State} (h : s.MemoryWf) {a : Nat} {bs : List Byte}
    (ha : a + bs.length ≤ Config.memSize) (e : Nat) :
    (s.writeBytes a bs).readByte e =
      if hb : a ≤ e ∧ e < a + bs.length then bs[e - a]'(by omega) else s.readByte e := by
  induction bs generalizing s a with
  | nil => rw [dif_neg (by simp only [List.length_nil]; omega)]; rfl
  | cons b bs ih =>
    simp only [List.length_cons] at ha ⊢
    simp only [writeBytes]
    rw [ih (writeByte_memoryWf h a b) (by omega)]
    by_cases he : e = a
    · subst e
      rw [dif_neg (by omega), dif_pos (by omega), readByte_writeByte h (by omega), if_pos rfl]
      simp
    · rw [readByte_writeByte h (by omega), if_neg he]
      by_cases hb : a + 1 ≤ e ∧ e < a + 1 + bs.length
      · rw [dif_pos hb, dif_pos (by omega)]
        obtain ⟨k, rfl⟩ : ∃ k, e = a + 1 + k := ⟨e - (a + 1), by omega⟩
        simp [show a + 1 + k - a = k + 1 by omega]
      · rw [dif_neg hb, dif_neg (by omega)]

theorem length_readBytes (s : State) (a n : Nat) : (s.readBytes a n).length = n := by
  induction n generalizing a with
  | zero => rfl
  | succ n ih => simp only [readBytes, List.length_cons, ih]

theorem getElem_readBytes (s : State) (a n k : Nat) (hk : k < (s.readBytes a n).length) :
    (s.readBytes a n)[k] = s.readByte (a + k) := by
  induction n generalizing a k with
  | zero => exact absurd hk (Nat.not_lt_zero k)
  | succ n ih =>
    cases k with
    | zero => rfl
    | succ k =>
      simp only [readBytes, List.getElem_cons_succ]
      rw [ih, Nat.add_assoc, Nat.add_comm 1 k]

end State

end Sys2Proof.Machine
end

