-- ==== Sys2Proof/Laws/Ops.lean ====
section
/-!
SUPPORT. One lemma per shared operation that says once all it can do: the range test, fetch, the end of
a cycle, the flag writes, the register range, and the inversion of `step`.
-/

namespace Sys2Proof.Machine

/-! ### The range test -/

theorem firstOutOfRange_eq_none {base count : Nat} :
    firstOutOfRange base count = none ↔ count = 0 ∨ base + (count - 1) ≤ 0xFFF := by
  unfold firstOutOfRange
  split
  · simp [*]
  · split
    · simp only [reduceCtorEq, false_iff]; omega
    · simp only [true_iff]; omega

theorem firstOutOfRange_eq_some {base count bad : Nat} :
    firstOutOfRange base count = some bad ↔
      count ≠ 0 ∧ base + (count - 1) > 0xFFF ∧ bad = max base 0x1000 := by
  unfold firstOutOfRange
  split
  · simp [*]
  · split
    · simp only [Option.some.injEq]
      exact ⟨fun h => ⟨‹_›, ‹_›, h.symm⟩, fun h => h.2.2.symm⟩
    · simp only [reduceCtorEq, false_iff]
      exact fun h => absurd h.2.1 ‹_›

namespace State

/-- The range test of an instruction is the fault of that range, entered before any effect, or the
effect. -/
theorem withRange_eq (s : State) (kind : AccessKind) (count : Nat) (op : Word) (t : State) :
    s.withRange kind s.i.toNat count op t =
      match rangeFault s kind count with
      | some c => .next (s.raise c op)
      | none => .next t := by
  unfold withRange rangeFault
  by_cases h : 1 ≤ count ∧ s.i.toNat + count - 1 > 0xFFF
  · rw [if_pos h, firstOutOfRange_eq_some.mpr ⟨by omega, by omega, rfl⟩]
    have : max s.i.toNat 0x1000 = if s.i.toNat > 0xFFF then s.i.toNat else 0x1000 := by
      split <;> omega
    simp only [this]
  · rw [if_neg h, firstOutOfRange_eq_none.mpr (by omega)]

/-- Inside memory the effect happens. -/
theorem withRange_inRange {s : State} {count : Nat} (h : s.InRange count) (kind : AccessKind)
    (op : Word) (t : State) : s.withRange kind s.i.toNat count op t = .next t := by
  unfold withRange
  rw [firstOutOfRange_eq_none.mpr (by unfold InRange at h; omega)]

/-- Whatever the range, the outcome is a next state: the fault entered, or the effect. -/
theorem withRange_next {s : State} {kind : AccessKind} {base count : Nat} {op : Word} {t u : State}
    (h : s.withRange kind base count op t = .next u) :
    u = t ∨ ∃ bad, u = s.raise (.memoryRange kind bad) op := by
  unfold withRange at h
  split at h <;> simp only [Host.Outcome.next.injEq] at h
  · exact .inr ⟨_, h.symm⟩
  · exact .inl h.symm

/-! ### Fetch and the end of a cycle -/

theorem fetch_inside {s : State} (h : s.pc.toNat ≤ 0xFFE) : s.fetch = .ok s.opcode := by
  unfold fetch
  rw [firstOutOfRange_eq_none.mpr (by omega)]
  rfl

theorem fetch_outside {s : State} (h : s.pc.toNat > 0xFFE) :
    s.fetch = .error (s.enterFault (.memoryRange .fetch (max s.pc.toNat 0x1000)) none) := by
  unfold fetch
  rw [firstOutOfRange_eq_some.mpr ⟨by omega, by omega, rfl⟩]

theorem endCycle_running {s : State} (h : s.status = .running) : s.endCycle = afterDecay s := by
  unfold endCycle; rw [h]; rfl

theorem endCycle_stopped {s : State} (h : s.status ≠ .running) : s.endCycle = s := by
  unfold endCycle; split <;> simp_all

end State

/-! ### The step -/

/-- A ready machine runs the instruction at `pc` on the state with `pc` advanced. -/
theorem step_ready {s : State} (h : s.Ready) :
    step s = finishCycle (exec (decodeWord s.params s.opcode) s.advance) := by
  unfold step State.stuck
  rw [h.1]
  simp only [State.fetch_inside h.2]

/-- A running machine whose `pc` does not hold two bytes of memory enters the fetch fault. -/
theorem step_fetchFault {s : State} (h : s.status = .running) (hp : s.pc.toNat > 0xFFE) :
    step s = .next (s.enterFault (.memoryRange .fetch (max s.pc.toNat 0x1000)) none) := by
  unfold step State.stuck
  rw [h]
  simp only [State.fetch_outside hp]

/-- All a step with a next state can be: a fetch fault, or the end of the decoded instruction's own
outcome. -/
theorem step_cases {s t : State} (h : step s = .next t) :
    s.status = .running ∧
      ((s.pc.toNat > 0xFFE ∧
          t = s.enterFault (.memoryRange .fetch (max s.pc.toNat 0x1000)) none) ∨
        (s.pc.toNat ≤ 0xFFE ∧
          ∃ u, exec (decodeWord s.params s.opcode) s.advance = .next u ∧ t = u.endCycle)) := by
  have hr : s.status = .running := by
    unfold step State.stuck at h
    cases hs : s.status <;> simp [hs] at h ⊢
  refine ⟨hr, ?_⟩
  by_cases hp : s.pc.toNat > 0xFFE
  · rw [step_fetchFault hr hp, Host.Outcome.next.injEq] at h
    exact .inl ⟨hp, h.symm⟩
  · rw [step_ready ⟨hr, by omega⟩] at h
    refine .inr ⟨by omega, ?_⟩
    cases hx : exec (decodeWord s.params s.opcode) s.advance <;> rw [hx] at h <;>
      simp only [finishCycle, Host.Outcome.next.injEq, reduceCtorEq] at h
    exact ⟨_, rfl, h.symm⟩

/-! ### What the shared operations write, in the terms of the access matrix -/

/-- A skip writes `pc` alone, and only where its condition holds. -/
theorem skipIf_untouched {i : Instr} {s : State} {c : Bool} (hc : c = true → mayWrite i s .counter) :
    Untouched i s (skipIf s c) := by
  cases c
  · constructor <;> intros <;> first | rfl | exact ⟨rfl, rfl⟩
  · constructor
    case counter => exact fun h => absurd (hc rfl) h
    all_goals intros; first | rfl | exact ⟨rfl, rfl⟩

/-- A run of stored bytes writes those bytes alone. -/
theorem writeBytes_untouched {i : Instr} {s : State} {bs : List Byte}
    (hc : ∀ e, ¬ mayWrite i s (.byte e) → e < baseAddress s ∨ baseAddress s + bs.length ≤ e) :
    Untouched i s (s.writeBytes (baseAddress s) bs) := by
  have hb := fun e h => State.readByte_writeBytes_outside s bs (hc e h)
  have hf := State.writeBytes_frame s (baseAddress s) bs
  generalize s.writeBytes (baseAddress s) bs = t at *
  constructor
  case bytes => exact hb
  case reg => intro r _; rw [hf]; rfl
  case inputs => rw [hf]; exact ⟨rfl, rfl⟩
  all_goals intros; rw [hf]

/-! ### Flags and the register range -/

namespace State

@[simp] theorem reg_setFlag (s : State) (f : Bool) (q : Reg) :
    (s.setFlag f).reg q = if q = VF then flagByte f else s.reg q := reg_setReg s VF q _

@[simp] theorem reg_setFlagThenReg (s : State) (x : Reg) (f : Bool) (r : Byte) (q : Reg) :
    (s.setFlagThenReg x f r).reg q = if q = x then r else if q = VF then flagByte f else s.reg q := by
  simp only [setFlagThenReg, reg_setReg, reg_setFlag]

theorem setFlag_frame (s : State) (f : Bool) : s.setFlag f = { s with v := (s.setFlag f).v } := rfl

theorem setFlagThenReg_frame (s : State) (x : Reg) (f : Bool) (r : Byte) :
    s.setFlagThenReg x f r = { s with v := (s.setFlagThenReg x f r).v } := rfl

end State

theorem reg_loadRange (s : State) (x q : Reg) (a : Nat) :
    (loadRange s x a).reg q = if q ≤ x then s.readByte (a + q.val) else s.reg q := by
  simp [loadRange, State.reg, Vector.getElem_ofFn]

theorem loadRange_frame (s : State) (x : Reg) (a : Nat) :
    loadRange s x a = { s with v := (loadRange s x a).v } := rfl

theorem length_rangeBytes (s : State) (x : Reg) : (rangeBytes s x).length = x.val + 1 := by
  simp only [rangeBytes, rangeCount, List.length_take, Vector.length_toList]
  omega

theorem getElem_rangeBytes (s : State) (x q : Reg) (h : q.val < (rangeBytes s x).length) :
    (rangeBytes s x)[q.val] = s.reg q := by
  simp [rangeBytes, State.reg]

theorem length_decimalDigits (b : Byte) : (decimalDigits b).length = 3 := rfl

/-! ### Keys -/

theorem keyIndex_of_lt {b : Byte} (h : b.toNat < 16) : keyIndex b = some ⟨b.toNat, h⟩ := dif_pos h

theorem keyIndex_of_ge {b : Byte} (h : ¬ b.toNat < 16) : keyIndex b = none := dif_neg h

/-- No key is pressed exactly when the scan finds none. -/
theorem firstPressed_eq_none {s : State} : firstPressed s = none ↔ ∀ k, s.key k = false := by
  simp [firstPressed]

/-- The scan finds the least pressed key. -/
theorem firstPressed_eq_some {s : State} {k : Fin 16} (hk : s.key k = true)
    (hl : ∀ j, j < k → s.key j = false) : firstPressed s = some k := by
  unfold firstPressed
  rw [List.find?_eq_some_iff_getElem]
  refine ⟨hk, k.val, by simp, by simp, fun j hj => ?_⟩
  have := hl ⟨j, by omega⟩ hj
  simpa using this

end Sys2Proof.Machine
end

