-- ==== Sys2Proof/Laws/Display.lean ====
section
/-!
SUPPORT. The laws of the frame buffer: a toggle changes one cell, and what a run of distinct toggles
does to every cell and to the collision flag.
-/

namespace Sys2Proof.Machine

/-- A toggle of a cell of the buffer changes that cell alone. -/
theorem fbCell_fbToggle (f : FrameBuffer) {k : Nat} (hk : k < Config.fbCells) (j : Nat) :
    fbCell (fbToggle f k) j = if j = k then !fbCell f j else fbCell f j := by
  simp only [fbCell, fbToggle, BitVec.getLsbD_xor, BitVec.getLsbD_twoPow]
  by_cases h : j = k
  · subst h; simp [hk]
  · simp [h, Ne.symm h]

theorem plot_inside (d : FrameBuffer × Bool) {k : Nat} (hk : k < Config.fbCells) :
    plot d k = (fbToggle d.1 k, d.2 || fbCell d.1 k) := if_pos hk

/-- An index outside the buffer is skipped (R212). -/
theorem plot_outside (d : FrameBuffer × Bool) {k : Nat} (hk : ¬ k < Config.fbCells) :
    plot d k = d := if_neg hk

/-- Plotting distinct cells: each one inside the buffer is toggled, the others keep their value, and a
collision is a plotted cell that was on. -/
theorem foldl_plot {l : List Nat} (hl : l.Nodup) (f : FrameBuffer) (hit : Bool) :
    (∀ j, fbCell (l.foldl plot (f, hit)).1 j =
        if j ∈ l ∧ j < Config.fbCells then !fbCell f j else fbCell f j) ∧
      ((l.foldl plot (f, hit)).2 = true ↔
        hit = true ∨ ∃ j ∈ l, j < Config.fbCells ∧ fbCell f j = true) := by
  induction l generalizing f hit with
  | nil => simp
  | cons k l ih =>
    have hk := List.nodup_cons.mp hl
    rw [List.foldl_cons]
    by_cases hin : k < Config.fbCells
    · rw [plot_inside _ hin]
      obtain ⟨ih1, ih2⟩ := ih hk.2 (fbToggle f k) (hit || fbCell f k)
      have other {j : Nat} (hj : j ∈ l) : fbCell (fbToggle f k) j = fbCell f j := by
        rw [fbCell_fbToggle f hin, if_neg (show j ≠ k from fun e => hk.1 (e ▸ hj))]
      refine ⟨fun j => ?_, ?_⟩
      · rw [ih1, fbCell_fbToggle f hin]
        by_cases hj : j = k
        · subst hj; simp [hk.1, hin]
        · simp [hj]
      · rw [ih2, Bool.or_eq_true_iff]
        constructor
        · rintro ((h | h) | ⟨j, hj, hjc, hjf⟩)
          · exact .inl h
          · exact .inr ⟨k, List.mem_cons_self, hin, h⟩
          · exact .inr ⟨j, List.mem_cons_of_mem _ hj, hjc, other hj ▸ hjf⟩
        · rintro (h | ⟨j, hj, hjc, hjf⟩)
          · exact .inl (.inl h)
          · rcases List.mem_cons.mp hj with rfl | hj
            · exact .inl (.inr hjf)
            · exact .inr ⟨j, hj, hjc, (other hj).trans hjf⟩
    · rw [plot_outside _ hin]
      obtain ⟨ih1, ih2⟩ := ih hk.2 f hit
      refine ⟨fun j => ?_, ?_⟩
      · rw [ih1]
        by_cases hj : j = k
        · subst hj; simp [hk.1, hin]
        · simp [hj]
      · rw [ih2]
        simp [hin]

theorem mem_setColumns {row : Byte} {c : Nat} :
    c ∈ setColumns row ↔ c < 8 ∧ row.getLsbD (7 - c) = true := by
  simp [setColumns]

/-- The set pixels of a sprite are its set bits. -/
theorem mem_spritePixels {rows : List Byte} {first r c : Nat} :
    (r, c) ∈ spritePixels first rows ↔
      ∃ h : first ≤ r ∧ r < first + rows.length,
        c < 8 ∧ (rows[r - first]'(by omega)).getLsbD (7 - c) = true := by
  induction rows generalizing first with
  | nil => simp [spritePixels]
  | cons row rows ih =>
    simp only [spritePixels, List.mem_append, List.mem_map, Prod.mk.injEq, ih, mem_setColumns,
      List.length_cons]
    constructor
    · rintro (⟨c', ⟨hc, hb⟩, rfl, rfl⟩ | ⟨h, hc, hb⟩)
      · exact ⟨by omega, hc, by simpa using hb⟩
      · refine ⟨by omega, hc, ?_⟩
        obtain ⟨k, rfl⟩ : ∃ k, r = first + 1 + k := ⟨r - (first + 1), by omega⟩
        simpa [show first + 1 + k - first = k + 1 by omega] using hb
    · rintro ⟨h, hc, hb⟩
      by_cases hr : r = first
      · subst hr; exact .inl ⟨c, ⟨hc, by simpa using hb⟩, rfl, rfl⟩
      · obtain ⟨k, rfl⟩ : ∃ k, r = first + 1 + k := ⟨r - (first + 1), by omega⟩
        refine .inr ⟨by omega, hc, ?_⟩
        simpa [show first + 1 + k - first = k + 1 by omega] using hb

theorem nodup_spritePixels (rows : List Byte) (first : Nat) : (spritePixels first rows).Nodup := by
  induction rows generalizing first with
  | nil => exact List.nodup_nil
  | cons row rows ih =>
    refine List.Nodup.append ?_ (ih (first + 1)) ?_
    · refine List.Nodup.map (fun _ _ h => (Prod.mk.inj h).2) ?_
      exact (List.nodup_range (n := 8)).filter _
    · rintro ⟨r, c⟩ h h'
      obtain ⟨_, _, h⟩ := List.mem_map.mp h
      obtain ⟨h', -⟩ := mem_spritePixels.mp h'
      simp only [Prod.mk.injEq] at h
      omega

/-- Two pixels of a sprite of fewer than 32 rows never fall on one cell, in either mode (R212, corner
case 5). -/
theorem pixelIndex_injective (mode : DrawMode) (vx vy : Byte) {r c r' c' : Nat} (hr : r < 32)
    (hr' : r' < 32) (hc : c < 8) (hc' : c' < 8)
    (h : pixelIndex mode vx vy r c = pixelIndex mode vx vy r' c') : r = r' ∧ c = c' := by
  cases mode <;> simp only [pixelIndex, Config.fbWidth, Config.fbHeight] at h <;> omega

end Sys2Proof.Machine
end

