-- ==== Sys2Proof/Laws/PerInstr.lean ====
section
/-!
SUPPORT. The family `RoundTrip`, per instruction: the word of a well-formed instruction decodes to it,
whatever the parameters.
-/

namespace Sys2Proof.Laws

/-- The word of `i`, if `i` is well formed, decodes to `i`. -/
def RoundTrip.Statement (i : Instr) : Prop :=
  ∀ p : Config.Params, i.wf p = true → decodeWord p (encode i) = i

/-- A value in no row decodes to the no-op entry: in every arm of the decoder that names an instruction
the value would be in that instruction's row. -/
theorem decodeWord_of_isUndefined (p : Config.Params) (op : Word) (h : isUndefined p op = true) :
    decodeWord p op = .nopUndef op := by
  have no : ∀ r ∈ controlRows p ++ immediateRows ++ groupEightRows ++ middleRows p ++ keyAndMiscRows,
      ¬ r.hits op = true := by
    simpa only [isUndefined, opcodeRows, List.all_eq_true, Bool.not_eq_true', Bool.not_eq_true] using h
  simp only [controlRows, immediateRows, groupEightRows, middleRows, keyAndMiscRows, List.cons_append,
    List.nil_append, List.forall_mem_cons] at no
  obtain ⟨r0, r1, r2, r3, r4, r5, r6, r7, r8, r9, r10, r11, r12, r13, r14, r15, r16, r17, r18, r19, r20,
    r21, r22, r23, r24, r25, r26, r27, r28, r29, r30, r31, r32, r33, -⟩ := no
  have nib {a : Nibble} (b : Nibble) : a.toNat = b.toNat → a = b := BitVec.eq_of_toNat_eq
  have byt {a : Byte} (b : Byte) : a.toNat = b.toNat → a = b := BitVec.eq_of_toNat_eq
  have group (g : Nibble) (e : fieldG op = g) := (hits_F000 op g).mpr e
  have low (g n : Nibble) (e : fieldG op = g) (e' : fieldN op = n) := (hits_F00F op g n).mpr ⟨e, e'⟩
  have byte (g : Nibble) (b : Byte) (e : fieldG op = g) (e' : fieldNN op = b) :=
    (hits_F0FF op g b).mpr ⟨e, e'⟩
  have zero (b : Byte) (hr : ¬ OpcodeRow.hits
      ⟨0#4 ++ 0#4 ++ b, if p.strictGroup0 then 0xFFFF else 0xF0FF⟩ op = true)
      (hs : ¬ (p.strictGroup0 && fieldXBits op != 0) = true) (e : fieldG op = 0) : fieldNN op ≠ b := by
    intro e'
    cases hp : p.strictGroup0 <;> 
      simp only [hp, Bool.false_eq_true, if_false, if_true, Bool.true_and, bne_iff_ne, ne_eq, not_not] at hr hs
    · exact hr (byte 0 b e e')
    · exact hr ((hits_FFFF op 0 b).mpr ⟨e, hs, e'⟩)
  unfold decodeWord
  split
  case h_1 e =>
    unfold decodeGroup0
    split
    · rfl
    · rename_i hs
      split
      case h_1 e' => exact absurd (byt 0xE0 e') (zero _ r0 hs (nib 0 e))
      case h_2 e' => exact absurd (byt 0xEE e') (zero _ r1 hs (nib 0 e))
      case h_3 => rfl
  case h_6 e =>
    split
    · rename_i hs
      cases hp : p.lenient59 <;> 
        simp only [hp, Bool.false_or, if_false, if_true, Bool.false_eq_true, beq_iff_eq] at r6 hs
      · exact absurd (low 5 0 (nib 5 e) hs) r6
      · exact absurd (group 5 (nib 5 e)) r6
    · rfl
  case h_9 e =>
    unfold decodeGroup8
    split
    case h_1 e' => exact absurd (low 8 0 (nib 8 e) (nib 0 e')) r9
    case h_2 e' => exact absurd (low 8 1 (nib 8 e) (nib 1 e')) r10
    case h_3 e' => exact absurd (low 8 2 (nib 8 e) (nib 2 e')) r11
    case h_4 e' => exact absurd (low 8 3 (nib 8 e) (nib 3 e')) r12
    case h_5 e' => exact absurd (low 8 4 (nib 8 e) (nib 4 e')) r13
    case h_6 e' => exact absurd (low 8 5 (nib 8 e) (nib 5 e')) r14
    case h_7 e' => exact absurd (low 8 6 (nib 8 e) (nib 6 e')) r15
    case h_8 e' => exact absurd (low 8 7 (nib 8 e) (nib 7 e')) r16
    case h_9 e' => exact absurd (low 8 14 (nib 8 e) (nib 14 e')) r17
    case h_10 => rfl
  case h_10 e =>
    split
    · rename_i hs
      cases hp : p.lenient59 <;> 
        simp only [hp, Bool.false_or, if_false, if_true, Bool.false_eq_true, beq_iff_eq] at r18 hs
      · exact absurd (low 9 0 (nib 9 e) hs) r18
      · exact absurd (group 9 (nib 9 e)) r18
    · rfl
  case h_15 e =>
    unfold decodeGroupE
    split
    case h_1 e' => exact absurd (byte 0xE 0x9E (nib 0xE e) (byt 0x9E e')) r23
    case h_2 e' => exact absurd (byte 0xE 0xA1 (nib 0xE e) (byt 0xA1 e')) r24
    case h_3 => rfl
  case h_16 e0 e1 e2 e3 e4 e5 e6 e7 e8 e9 ea eb ec ed ee =>
    have e : fieldG op = 0xF := nib 0xF (show (fieldG op).toNat = 15 by
      have := (fieldG op).isLt; simp only [imp_false] at *; omega)
    unfold decodeGroupF
    split
    case h_1 e' => exact absurd (byte 0xF 0x07 e (byt 0x07 e')) r25
    case h_2 e' => exact absurd (byte 0xF 0x0A e (byt 0x0A e')) r26
    case h_3 e' => exact absurd (byte 0xF 0x15 e (byt 0x15 e')) r27
    case h_4 e' => exact absurd (byte 0xF 0x18 e (byt 0x18 e')) r28
    case h_5 e' => exact absurd (byte 0xF 0x1E e (byt 0x1E e')) r29
    case h_6 e' => exact absurd (byte 0xF 0x29 e (byt 0x29 e')) r30
    case h_7 e' => exact absurd (byte 0xF 0x33 e (byt 0x33 e')) r31
    case h_8 e' => exact absurd (byte 0xF 0x55 e (byt 0x55 e')) r32
    case h_9 e' => exact absurd (byte 0xF 0x65 e (byt 0x65 e')) r33
    case h_10 => rfl
  case h_2 e => exact absurd (group 1 (nib 1 e)) r2
  case h_3 e => exact absurd (group 2 (nib 2 e)) r3
  case h_4 e => exact absurd (group 3 (nib 3 e)) r4
  case h_5 e => exact absurd (group 4 (nib 4 e)) r5
  case h_7 e => exact absurd (group 6 (nib 6 e)) r7
  case h_8 e => exact absurd (group 7 (nib 7 e)) r8
  case h_11 e => exact absurd (group 10 (nib 10 e)) r19
  case h_12 e => exact absurd (group 11 (nib 11 e)) r20
  case h_13 e => exact absurd (group 12 (nib 12 e)) r21
  case h_14 e => exact absurd (group 13 (nib 13 e)) r22

theorem RoundTrip.cls (k : Nibble) : RoundTrip.Statement (.cls k) := by
  intro p h
  simp only [Instr.wf, Bool.or_eq_true, Bool.not_eq_eq_eq_not, Bool.not_true, beq_iff_eq] at h
  simpa [decodeWord, decodeGroup0, encode, or_iff_not_imp_left] using h

theorem RoundTrip.ret (k : Nibble) : RoundTrip.Statement (.ret k) := by
  intro p h
  simp only [Instr.wf, Bool.or_eq_true, Bool.not_eq_eq_eq_not, Bool.not_true, beq_iff_eq] at h
  simpa [decodeWord, decodeGroup0, encode, or_iff_not_imp_left] using h

theorem RoundTrip.jp (nnn : Addr) : RoundTrip.Statement (.jp nnn) := by
  intro p _; simp [decodeWord, encode]

theorem RoundTrip.call (nnn : Addr) : RoundTrip.Statement (.call nnn) := by
  intro p _; simp [decodeWord, encode]

theorem RoundTrip.seImm (x : Reg) (nn : Byte) : RoundTrip.Statement (.seImm x nn) := by
  intro p _; simp [decodeWord, encode]

theorem RoundTrip.sneImm (x : Reg) (nn : Byte) : RoundTrip.Statement (.sneImm x nn) := by
  intro p _; simp [decodeWord, encode]

theorem RoundTrip.seReg (x y : Reg) (low : Nibble) : RoundTrip.Statement (.seReg x y low) := by
  intro p h
  simp only [Instr.wf, Bool.or_eq_true, beq_iff_eq] at h
  rcases h with h | h <;> simp [decodeWord, encode, h]

theorem RoundTrip.ldImm (x : Reg) (nn : Byte) : RoundTrip.Statement (.ldImm x nn) := by
  intro p _; simp [decodeWord, encode]

theorem RoundTrip.addImm (x : Reg) (nn : Byte) : RoundTrip.Statement (.addImm x nn) := by
  intro p _; simp [decodeWord, encode]

theorem RoundTrip.ldReg (x y : Reg) : RoundTrip.Statement (.ldReg x y) := by
  intro p _; simp [decodeWord, decodeGroup8, encode]

theorem RoundTrip.orReg (x y : Reg) : RoundTrip.Statement (.orReg x y) := by
  intro p _; simp [decodeWord, decodeGroup8, encode]

theorem RoundTrip.andReg (x y : Reg) : RoundTrip.Statement (.andReg x y) := by
  intro p _; simp [decodeWord, decodeGroup8, encode]

theorem RoundTrip.xorReg (x y : Reg) : RoundTrip.Statement (.xorReg x y) := by
  intro p _; simp [decodeWord, decodeGroup8, encode]

theorem RoundTrip.addReg (x y : Reg) : RoundTrip.Statement (.addReg x y) := by
  intro p _; simp [decodeWord, decodeGroup8, encode]

theorem RoundTrip.subReg (x y : Reg) : RoundTrip.Statement (.subReg x y) := by
  intro p _; simp [decodeWord, decodeGroup8, encode]

theorem RoundTrip.shr (x y : Reg) : RoundTrip.Statement (.shr x y) := by
  intro p _; simp [decodeWord, decodeGroup8, encode]

theorem RoundTrip.subnReg (x y : Reg) : RoundTrip.Statement (.subnReg x y) := by
  intro p _; simp [decodeWord, decodeGroup8, encode]

theorem RoundTrip.shl (x y : Reg) : RoundTrip.Statement (.shl x y) := by
  intro p _; simp [decodeWord, decodeGroup8, encode]

theorem RoundTrip.sneReg (x y : Reg) (low : Nibble) : RoundTrip.Statement (.sneReg x y low) := by
  intro p h
  simp only [Instr.wf, Bool.or_eq_true, beq_iff_eq] at h
  rcases h with h | h <;> simp [decodeWord, encode, h]

theorem RoundTrip.ldI (nnn : Addr) : RoundTrip.Statement (.ldI nnn) := by
  intro p _; simp [decodeWord, encode]

theorem RoundTrip.jpV0 (nnn : Addr) : RoundTrip.Statement (.jpV0 nnn) := by
  intro p _; simp [decodeWord, encode]

theorem RoundTrip.rnd (x : Reg) (nn : Byte) : RoundTrip.Statement (.rnd x nn) := by
  intro p _; simp [decodeWord, encode]

theorem RoundTrip.drw (x y : Reg) (n : Nibble) : RoundTrip.Statement (.drw x y n) := by
  intro p _; simp [decodeWord, encode]

theorem RoundTrip.skp (x : Reg) : RoundTrip.Statement (.skp x) := by
  intro p _; simp [decodeWord, decodeGroupE, encode]

theorem RoundTrip.sknp (x : Reg) : RoundTrip.Statement (.sknp x) := by
  intro p _; simp [decodeWord, decodeGroupE, encode]

theorem RoundTrip.ldVxDt (x : Reg) : RoundTrip.Statement (.ldVxDt x) := by
  intro p _; simp [decodeWord, decodeGroupF, encode]

theorem RoundTrip.ldVxK (x : Reg) : RoundTrip.Statement (.ldVxK x) := by
  intro p _; simp [decodeWord, decodeGroupF, encode]

theorem RoundTrip.ldDtVx (x : Reg) : RoundTrip.Statement (.ldDtVx x) := by
  intro p _; simp [decodeWord, decodeGroupF, encode]

theorem RoundTrip.ldStVx (x : Reg) : RoundTrip.Statement (.ldStVx x) := by
  intro p _; simp [decodeWord, decodeGroupF, encode]

theorem RoundTrip.addIVx (x : Reg) : RoundTrip.Statement (.addIVx x) := by
  intro p _; simp [decodeWord, decodeGroupF, encode]

theorem RoundTrip.ldFVx (x : Reg) : RoundTrip.Statement (.ldFVx x) := by
  intro p _; simp [decodeWord, decodeGroupF, encode]

theorem RoundTrip.ldBVx (x : Reg) : RoundTrip.Statement (.ldBVx x) := by
  intro p _; simp [decodeWord, decodeGroupF, encode]

theorem RoundTrip.storeRegs (x : Reg) : RoundTrip.Statement (.storeRegs x) := by
  intro p _; simp [decodeWord, decodeGroupF, encode]

theorem RoundTrip.loadRegs (x : Reg) : RoundTrip.Statement (.loadRegs x) := by
  intro p _; simp [decodeWord, decodeGroupF, encode]

theorem RoundTrip.nopUndef (op : Word) : RoundTrip.Statement (.nopUndef op) :=
  fun p h => decodeWord_of_isUndefined p op h

end Sys2Proof.Laws
end

