-- ==== Sys2Proof/Tests/Slice0.lean ====
section
/-!
SUPPORT. The model's own tests. Expected values are the spec's: words written out from the encodings of
spec/30_encoding.md R95, results from the examples and corner cases of the rule each test names. After
them, for every statement with hypotheses, a state and operands that meet them all.
-/

namespace Sys2Proof.Tests

open Sys2Proof.Machine

/-- The default parameters with the spec's illustration value 0x050 of `FONT_BASE`. -/
def params : Config.Params := { defaultParams with fontBase := 0x050 }

/-- Key 5 is pressed; the random byte is 0xB7. -/
def keyFive : Inputs := { keys := Vector.ofFn fun k => k == 5, rnd := 0xB7 }

/-- No key is pressed. -/
def noKey : Inputs := { keys := Vector.replicate 16 false, rnd := 0 }

/-- The state after reset with `op` at 0x200, these register values and key 5 pressed. -/
def bench (op : Word) (regs : List (Reg × Byte)) : State :=
  (regs.foldl (fun (s : State) q => s.setReg q.1 q.2)
    { State.reset with params := params, inputs := [keyFive, keyFive] }).withFetchWord 16 op.toNat

/-- What `f` sees of the state after one step. -/
def view {α : Type} (s : State) (f : State → α) : Option α :=
  match step s with
  | .next t => some (f t)
  | .fault _ => none
  | .refused _ => none

/-! ### Well-formedness: an ill-formed term for each check -/

theorem test_wf_refuses_a_defined_value_as_undefined :
    (Instr.nopUndef 0x1234).wf params = false := by decide

theorem test_wf_refuses_a_nibble_of_strict_cls :
    (Instr.cls 1).wf { params with strictGroup0 := true } = false := by decide

theorem test_wf_refuses_a_nibble_of_strict_ret :
    (Instr.ret 1).wf { params with strictGroup0 := true } = false := by decide

theorem test_wf_refuses_a_low_nibble_of_seReg : (Instr.seReg 1 2 1).wf params = false := by decide

theorem test_wf_refuses_a_low_nibble_of_sneReg : (Instr.sneReg 1 2 1).wf params = false := by decide

/-! ### Decoding: one word of every constructor, written out from R95 -/

theorem test_decode_cls : decodeWord params 0b0000_0000_1110_0000 = .cls 0 := by decide
theorem test_decode_ret : decodeWord params 0b0000_0111_1110_1110 = .ret 7 := by decide
theorem test_decode_jp : decodeWord params 0b0001_0010_0011_0100 = .jp 0x234 := by decide
theorem test_decode_call : decodeWord params 0b0010_0011_0000_0000 = .call 0x300 := by decide
theorem test_decode_seImm : decodeWord params 0b0011_0011_0010_1010 = .seImm 3 0x2A := by decide
theorem test_decode_sneImm : decodeWord params 0b0100_0011_0010_1010 = .sneImm 3 0x2A := by decide
theorem test_decode_seReg : decodeWord params 0b0101_0001_0010_0000 = .seReg 1 2 0 := by decide
theorem test_decode_ldImm : decodeWord params 0b0110_0000_0000_0101 = .ldImm 0 0x05 := by decide
theorem test_decode_addImm : decodeWord params 0b0111_0001_0000_0010 = .addImm 1 0x02 := by decide
theorem test_decode_ldReg : decodeWord params 0b1000_0001_0010_0000 = .ldReg 1 2 := by decide
theorem test_decode_orReg : decodeWord params 0b1000_0001_0010_0001 = .orReg 1 2 := by decide
theorem test_decode_andReg : decodeWord params 0b1000_0001_0010_0010 = .andReg 1 2 := by decide
theorem test_decode_xorReg : decodeWord params 0b1000_0001_0010_0011 = .xorReg 1 2 := by decide
theorem test_decode_addReg : decodeWord params 0b1000_0001_0010_0100 = .addReg 1 2 := by decide
theorem test_decode_subReg : decodeWord params 0b1000_0001_0010_0101 = .subReg 1 2 := by decide
theorem test_decode_shr : decodeWord params 0b1000_0001_0010_0110 = .shr 1 2 := by decide
theorem test_decode_subnReg : decodeWord params 0b1000_0001_0010_0111 = .subnReg 1 2 := by decide
theorem test_decode_shl : decodeWord params 0b1000_0001_0000_1110 = .shl 1 0 := by decide
theorem test_decode_sneReg : decodeWord params 0b1001_0001_0010_0000 = .sneReg 1 2 0 := by decide
theorem test_decode_ldI : decodeWord params 0b1010_0010_1111_0000 = .ldI 0x2F0 := by decide
theorem test_decode_jpV0 : decodeWord params 0b1011_0011_0000_0000 = .jpV0 0x300 := by decide
theorem test_decode_rnd : decodeWord params 0b1100_0001_0000_1111 = .rnd 1 0x0F := by decide
theorem test_decode_drw : decodeWord params 0b1101_0001_0010_0101 = .drw 1 2 5 := by decide
theorem test_decode_skp : decodeWord params 0b1110_0010_1001_1110 = .skp 2 := by decide
theorem test_decode_sknp : decodeWord params 0b1110_0010_1010_0001 = .sknp 2 := by decide
theorem test_decode_ldVxDt : decodeWord params 0b1111_0011_0000_0111 = .ldVxDt 3 := by decide
theorem test_decode_ldVxK : decodeWord params 0b1111_0011_0000_1010 = .ldVxK 3 := by decide
theorem test_decode_ldDtVx : decodeWord params 0b1111_0100_0001_0101 = .ldDtVx 4 := by decide
theorem test_decode_ldStVx : decodeWord params 0b1111_0100_0001_1000 = .ldStVx 4 := by decide
theorem test_decode_addIVx : decodeWord params 0b1111_0001_0001_1110 = .addIVx 1 := by decide
theorem test_decode_ldFVx : decodeWord params 0b1111_0000_0010_1001 = .ldFVx 0 := by decide
theorem test_decode_ldBVx : decodeWord params 0b1111_0001_0011_0011 = .ldBVx 1 := by decide
theorem test_decode_storeRegs : decodeWord params 0b1111_0010_0101_0101 = .storeRegs 2 := by decide
theorem test_decode_loadRegs : decodeWord params 0b1111_0010_0110_0101 = .loadRegs 2 := by decide
theorem test_decode_nopUndef : decodeWord params 0b0101_0001_0010_0001 = .nopUndef 0x5121 := by decide

theorem test_decode_strict_cls :
    decodeWord { params with strictGroup0 := true } 0x07E0 = .nopUndef 0x07E0 := by decide

theorem test_decode_lenient_seReg :
    decodeWord { params with lenient59 := true } 0x5121 = .seReg 1 2 1 := by decide

theorem test_decode_refuses_one_byte : decode params [0x12] = .error .truncated := rfl

/-! ### One step of every instruction -/

/-- R211. -/
theorem test_cls_clears_the_screen :
    view ({ bench 0x00E0 [(VF, 1)] with fb := 0b111 }) (fun t => (t.fb, t.reg VF)) =
      some (0, 1) := by decide +kernel

/-- R141, its example. -/
theorem test_ret_pops :
    view ({ bench 0x00EE [] with sp := 1, stack := (bench 0 []).stack.set 1 0x0302 }) (fun t => (t.pc, t.sp)) =
      some (0x0302, 0) := by decide

/-- R253. -/
theorem test_ret_on_empty_stack_faults :
    view (bench 0x00EE []) (fun t => (t.status, t.pc)) =
      some (.faulted { cause := .stackUnderflow 0, pc0 := 0x0200, op := some 0x00EE }, 0x0200) := by decide

/-- R142, its example. -/
theorem test_jp_jumps :
    view (bench 0x1234 []) (fun t => t.pc) =
      some (0x0234) := by decide

/-- R143, its example. -/
theorem test_call_pushes :
    view (bench 0x2300 []) (fun t => (t.pc, t.sp, t.stack[1])) =
      some (0x0300, 1, 0x0202) := by decide

/-- R252. -/
theorem test_call_on_full_stack_faults :
    view ({ bench 0x2300 [] with sp := 15, dt := 2 }) (fun t => (t.status, t.pc, t.dt)) =
      some (.faulted { cause := .stackOverflow 15, pc0 := 0x0200, op := some 0x2300 }, 0x0200, 2) := by decide

/-- R144, its example. -/
theorem test_seImm_skips :
    view (bench 0x332A [(3, 0x2A)]) (fun t => t.pc) =
      some (0x0204) := by decide

/-- R145, its example. -/
theorem test_sneImm_does_not_skip :
    view (bench 0x432A [(3, 0x2A)]) (fun t => t.pc) =
      some (0x0202) := by decide

/-- R146, its example. -/
theorem test_seReg_skips :
    view (bench 0x5120 [(1, 7), (2, 7)]) (fun t => t.pc) =
      some (0x0204) := by decide

/-- R147, its example. -/
theorem test_sneReg_skips :
    view (bench 0x9120 [(1, 7), (2, 8)]) (fun t => t.pc) =
      some (0x0204) := by decide

/-- R162, its example. -/
theorem test_ldImm_loads :
    view (bench 0x6005 []) (fun t => t.reg 0) =
      some (0x05) := by decide

/-- R163, its example. -/
theorem test_addImm_wraps_without_flag :
    view (bench 0x7102 [(1, 0xFF), (VF, 0x55)]) (fun t => (t.reg 1, t.reg VF)) =
      some (0x01, 0x55) := by decide

/-- R164, its example. -/
theorem test_ldReg_copies :
    view (bench 0x8120 [(2, 0x7C)]) (fun t => (t.reg 1, t.reg 2)) =
      some (0x7C, 0x7C) := by decide

/-- R165, its example. -/
theorem test_orReg_keeps_flag :
    view (bench 0x8121 [(1, 0xF0), (2, 0x0F), (VF, 1)]) (fun t => (t.reg 1, t.reg VF)) =
      some (0xFF, 1) := by decide

/-- R166, its example. -/
theorem test_andReg_ands :
    view (bench 0x8122 [(1, 0xF0), (2, 0x3C)]) (fun t => t.reg 1) =
      some (0x30) := by decide

/-- R167, its example. -/
theorem test_xorReg_xors :
    view (bench 0x8123 [(1, 0xF0), (2, 0x3C)]) (fun t => t.reg 1) =
      some (0xCC) := by decide

/-- R168, its example. -/
theorem test_addReg_carries :
    view (bench 0x8124 [(1, 0x80), (2, 0x80)]) (fun t => (t.reg 1, t.reg VF)) =
      some (0x00, 1) := by decide

/-- R168, corner cases. -/
theorem test_addReg_sums_the_named_pair :
    view (bench 0x8124 [(1, 0x30), (2, 0xF0)]) (fun t => (t.reg 1, t.reg VF)) =
      some (0x20, 1) := by decide

/-- R169, corner cases. -/
theorem test_subReg_borrows :
    view (bench 0x8125 [(1, 0x05), (2, 0x0A), (VF, 1)]) (fun t => (t.reg 1, t.reg VF)) =
      some (0xFB, 0) := by decide

/-- R169. -/
theorem test_subReg_of_equals_leaves_flag_0 :
    view (bench 0x8125 [(1, 0x42), (2, 0x42), (VF, 1)]) (fun t => (t.reg 1, t.reg VF)) =
      some (0x00, 0) := by decide

/-- R170, its example. -/
theorem test_shr_shifts_Vx_in_place :
    view (bench 0x8126 [(1, 0x03), (2, 0xFF)]) (fun t => (t.reg 1, t.reg VF)) =
      some (0x01, 1) := by decide

/-- R171, its example. -/
theorem test_subnReg_subtracts_the_other_way :
    view (bench 0x8127 [(1, 0x0A), (2, 0x05), (VF, 1)]) (fun t => (t.reg 1, t.reg VF)) =
      some (0xFB, 0) := by decide

/-- R172, its example. -/
theorem test_shl_shifts_Vx_in_place :
    view (bench 0x810E [(1, 0x81)]) (fun t => (t.reg 1, t.reg VF)) =
      some (0x02, 1) := by decide

/-- R161, D12. -/
theorem test_shl_of_VF_loses_the_flag :
    view (bench 0x8F0E [(VF, 0x81)]) (fun t => t.reg VF) =
      some (0x02) := by decide

/-- R190, its example. -/
theorem test_ldI_loads :
    view (bench 0xA2F0 []) (fun t => t.i) =
      some (0x02F0) := by decide

/-- R148. -/
theorem test_jpV0_adds_V0 :
    view (bench 0xBFFF [(0, 0xFF)]) (fun t => t.pc) =
      some (0x10FE) := by decide

/-- R173, its example. -/
theorem test_rnd_masks :
    view (bench 0xC10F []) (fun t => t.reg 1) =
      some (0x07) := by decide

/-- R212, its example. -/
theorem test_drw_draws_and_decays :
    view ({ bench 0xD011 [] with i := 0x50 }) (fun t => (t.fb, t.reg VF)) =
      some (0b1111, 0) := by decide +kernel

/-- R210, R212. -/
theorem test_drw_wraps_and_collides :
    view ({ bench 0xD011 [(0, 62), (1, 33)] with i := 0x50, fb := 1 <<< 64 }) (fun t => (t.fb.getLsbD 64, t.fb.getLsbD 65, t.fb.getLsbD 126, t.reg VF)) =
      some (false, true, true, 1) := by decide +kernel

/-- R231, its example. -/
theorem test_skp_skips :
    view (bench 0xE29E [(2, 0x05)]) (fun t => t.pc) =
      some (0x0204) := by decide

/-- R254. -/
theorem test_skp_above_15_faults :
    view (bench 0xE29E [(2, 0x10)]) (fun t => t.status) =
      some (.faulted { cause := .keyIndex 0x10, pc0 := 0x0200, op := some 0xE29E }) := by decide

/-- R232, its example. -/
theorem test_sknp_skips :
    view (bench 0xE2A1 [(2, 0x04)]) (fun t => t.pc) =
      some (0x0204) := by decide

/-- R233, its example. -/
theorem test_ldVxDt_reads_before_decay :
    view ({ bench 0xF307 [] with dt := 0x10 }) (fun t => (t.reg 3, t.dt)) =
      some (0x10, 0x0F) := by decide

/-- R234, its example. -/
theorem test_ldVxK_takes_the_key :
    view (bench 0xF30A []) (fun t => (t.reg 3, t.pc)) =
      some (5, 0x0202) := by decide

/-- R234, its example. -/
theorem test_ldVxK_polls :
    view ({ bench 0xF30A [] with inputs := [noKey], dt := 3 }) (fun t => (t.pc, t.dt)) =
      some (0x0200, 2) := by decide

/-- R235, its example. -/
theorem test_ldDtVx_decays_at_once :
    view (bench 0xF415 [(4, 0x05)]) (fun t => t.dt) =
      some (4) := by decide

/-- R236, its example. -/
theorem test_ldStVx_decays_at_once :
    view (bench 0xF418 [(4, 0x02)]) (fun t => t.st) =
      some (1) := by decide

/-- R191, its example. -/
theorem test_addIVx_is_not_masked :
    view ({ bench 0xF11E [(1, 0x05)] with i := 0x0FFE }) (fun t => t.i) =
      some (0x1003) := by decide

/-- R192, its example. -/
theorem test_ldFVx_points_at_a_glyph :
    view (bench 0xF029 [(0, 5)]) (fun t => t.i) =
      some (0x0069) := by decide

/-- R193, its example. -/
theorem test_ldBVx_stores_digits :
    view ({ bench 0xF133 [(1, 156)] with i := 0x0300 }) (fun t => (t.readBytes 0x0300 3, t.i)) =
      some ([1, 5, 6], 0x0300) := by decide

/-- R193, R251. -/
theorem test_ldBVx_faults_before_any_write :
    view ({ bench 0xF133 [(1, 156)] with i := 0x0FFE }) (fun t => (t.status, t.readByte 0x0FFE)) =
      some (.faulted { cause := .memoryRange .dataWrite 0x1000, pc0 := 0x0200, op := some 0xF133 }, 0) := by decide

/-- R194, its example. -/
theorem test_storeRegs_stores_a_range :
    view ({ bench 0xF255 [(0, 0x11), (1, 0x22), (2, 0x33), (3, 0x44)] with i := 0x0300 }) (fun t => (t.readBytes 0x0300 4, t.i)) =
      some ([0x11, 0x22, 0x33, 0x00], 0x0300) := by decide

/-- R195, of the bytes of its own opcode (R63). -/
theorem test_loadRegs_loads_a_range :
    view ({ bench 0xF265 [(3, 0x44)] with i := 0x0200 }) (fun t => (t.reg 0, t.reg 1, t.reg 2, t.reg 3)) =
      some (0xF2, 0x65, 0x00, 0x44) := by decide

/-- R127. -/
theorem test_undefined_only_advances :
    view ({ bench 0x5121 [] with dt := 1 }) (fun t => (t.pc, t.dt, t.status)) =
      some (0x0202, 0, .running) := by decide

/-- R121. -/
theorem test_fetch_at_0xFFF_faults :
    view ({ bench 0 [] with pc := 0x0FFF }) (fun t => t.status) =
      some (.faulted { cause := .memoryRange .fetch 0x1000, pc0 := 0x0FFF, op := none }) := by decide

/-! ### Witnesses: for every statement with hypotheses, inputs that meet them -/

/-- A state in which the record of a fault stands. -/
def stopped (c : FaultCause) : State :=
  { bench 0 [] with status := .faulted { cause := c, pc0 := 0x0200, op := none } }

/-- For `EncodedInstructionsDecodeBack`: each clause of `wf` at its edge. -/
theorem witness_wf : (Instr.cls 15).wf params = true ∧ (Instr.ret 0).wf { params with strictGroup0 := true } = true ∧
    (Instr.seReg 15 0 0).wf params = true ∧ (Instr.sneReg 0 15 15).wf { params with lenient59 := true } = true ∧
    (Instr.nopUndef 0xFFFF).wf params = true ∧ (Instr.nopUndef 0x0000).wf params = true := by decide

/-- For `OpcodeMapSelectsTheInstruction`: the first and the last row. -/
theorem witness_opcodeRows : (opcodeRows params)[0]? = some { pattern := 0x00E0, mask := 0xF0FF } ∧
    (opcodeRows params)[33]? = some { pattern := 0xF065, mask := 0xF0FF } ∧ (opcodeRows params)[34]? = none := by
  decide

/-- For `StepRunsTheInstructionAtPc`, at the highest `pc` that can fetch. -/
theorem witness_stepRuns : (bench 0x6005 []).Ready ∧
    decode params ((bench 0x6005 []).readBytes 0x0200 2) = .ok (.ldImm 0 5, []) ∧
    ({ bench 0 [] with pc := 0x0FFE } : State).Ready ∧
    decode params (({ bench 0 [] with pc := 0x0FFE } : State).readBytes 0x0FFE 2) = .ok (.nopUndef 0, []) :=
  ⟨⟨rfl, by decide⟩, by rfl, ⟨rfl, by decide⟩, by rfl⟩

/-- For `FetchOutsideMemoryFaults`: both clauses where they meet, and the highest reachable `pc`. -/
theorem witness_fetchOutside : ∀ w ∈ [0x0FFF#16, 0x1000#16, 0x10FE#16],
    ({ bench 0 [] with pc := w } : State).status = .running ∧
      ({ bench 0 [] with pc := w } : State).pc.toNat > 0xFFE := by
  simp only [List.forall_mem_cons]
  exact ⟨⟨rfl, by decide⟩, ⟨rfl, by decide⟩, ⟨rfl, by decide⟩, nofun⟩

/-- For `StoppedMachineHasNoStep`. -/
theorem witness_stopped : (stopped (.stackUnderflow 0)).status =
      .faulted { cause := .stackUnderflow 0, pc0 := 0x0200, op := none } ∧
    ({ bench 0 [] with status := .loadFailed 3585 } : State).status = .loadFailed 3585 := ⟨rfl, rfl⟩

/-- For `FaultingCycleKeepsEverythingElse`: a fetch fault and a fault of step 5. -/
theorem witness_faultingCycle :
    (∃ t, step { bench 0 [] with pc := 0x0FFF } = .next t ∧ t.status ≠ .running) ∧
    ∃ t, step (bench 0x00EE []) = .next t ∧ t.status ≠ .running :=
  ⟨⟨_, rfl, nofun⟩, ⟨_, rfl, nofun⟩⟩

/-- For `InstructionsFaultExactlyWhenListed`: each condition on both sides of its edge. -/
theorem witness_faultOf :
    faultOf (.call 0) { bench 0 [] with sp := 15 } = some (.stackOverflow 15) ∧
    faultOf (.call 0) { bench 0 [] with sp := 14 } = none ∧
    faultOf (.ret 0) { bench 0 [] with sp := 0 } = some (.stackUnderflow 0) ∧
    faultOf (.ret 0) { bench 0 [] with sp := 1 } = none ∧
    faultOf (.skp 2) (bench 0 [(2, 16)]) = some (.keyIndex 16) ∧
    faultOf (.sknp 2) (bench 0 [(2, 15)]) = none ∧
    faultOf (.drw 0 1 15) { bench 0 [] with i := 0x0FF2 } = some (.memoryRange .dataRead 0x1000) ∧
    faultOf (.drw 0 1 15) { bench 0 [] with i := 0x0FF1 } = none ∧
    faultOf (.drw 0 1 0) { bench 0 [] with i := 0xFFFF } = none ∧
    faultOf (.ldBVx 1) { bench 0 [] with i := 0x1000 } = some (.memoryRange .dataWrite 0x1000) ∧
    faultOf (.storeRegs 15) { bench 0 [] with i := 0x0FF1 } = some (.memoryRange .dataWrite 0x1000) ∧
    faultOf (.loadRegs 0) { bench 0 [] with i := 0xFFFF } = some (.memoryRange .dataRead 0xFFFF) := by
  decide

/-- For `UndefinedOpcodeOnlyAdvances`. -/
theorem witness_undefined : (bench 0x5121 []).Ready ∧
    ∀ r ∈ opcodeRows params, (bench 0x5121 []).opcode &&& r.mask ≠ r.pattern :=
  ⟨⟨rfl, by decide⟩, by decide⟩

/-- For `EveryStepKeepsTheInvariant` and `ParametersNeverChange`: the edges of the invariant, in a state
that steps. -/
theorem witness_invariant :
    let s := { bench 0x00EE [] with sp := 15, stack := Vector.replicate 16 0x1000 }
    s.Inv ∧ ∃ t, step s = .next t ∧ t.pc = 0x1000 :=
  ⟨⟨by decide, by decide, by decide⟩, ⟨_, rfl, rfl⟩⟩

/-- For `AccessMatrixHolds` and `OtherInstructionsIgnoreTheInputs`. -/
theorem witness_access : (faultOf (.drw 0 1 15) { bench 0 [] with i := 0x0FF1 } = none ∧
    ∃ t, exec (.drw 0 1 15) { bench 0 [] with i := 0x0FF1 } = .next t) ∧ ignoresInputs (.drw 0 1 15) :=
  ⟨⟨by decide, ⟨_, rfl⟩⟩, nofun, nofun, nofun, nofun⟩

/-- For `AccessMatrixHolds`: bytes next to the ones stored, and slots next to the new one, are not
written; the last byte stored and the new slot are. -/
theorem witness_notWritten :
    let s := { bench 0 [] with i := 0x0300, sp := 0 }
    ¬ mayWrite (.ldBVx 1) s (.byte 0x02FF) ∧ mayWrite (.ldBVx 1) s (.byte 0x0302) ∧
    ¬ mayWrite (.ldBVx 1) s (.byte 0x0303) ∧ mayWrite (.storeRegs 15) s (.byte 0x030F) ∧
    ¬ mayWrite (.storeRegs 15) s (.byte 0x0310) ∧ ¬ mayWrite (.call 0) s (.slot 0) ∧
    mayWrite (.call 0) s (.slot 1) ∧ ¬ mayWrite (.call 0) s (.slot 2) := by
  simp [mayWrite, baseAddress, rangeCount]

/-- For `DelayTimerFollowsItsRule` and `SoundTimerFollowsItsRule`: each case of the instruction. -/
theorem witness_timers : (∀ op ∈ [0xF415#16, 0xF418#16, 0xF307#16, 0x6005#16],
      (bench op []).Ready ∧ ∃ t, step (bench op []) = .next t ∧ t.status = .running) ∧
    decodeWord params (bench 0xF307 []).opcode = .ldVxDt 3 ∧ (∀ x, Instr.ldDtVx 4 ≠ .ldVxDt x) := by
  refine ⟨?_, by decide, nofun⟩
  simp only [List.forall_mem_cons]
  exact ⟨⟨⟨rfl, by decide⟩, _, rfl, rfl⟩, ⟨⟨rfl, by decide⟩, _, rfl, rfl⟩, ⟨⟨rfl, by decide⟩, _, rfl, rfl⟩,
    ⟨⟨rfl, by decide⟩, _, rfl, rfl⟩, nofun⟩

/-- For `IdleStateIsAFixedPoint`, at 0x200 and at the highest `pc` that can fetch. -/
theorem witness_idle : (bench 0x1200 []).Idle ∧
    (({ bench 0 [] with pc := 0x0FFE } : State).withFetchWord 16 0x1FFE).Idle :=
  ⟨⟨⟨rfl, by decide⟩, by decide, rfl, rfl⟩, ⟨⟨rfl, by decide⟩, by decide, rfl, rfl⟩⟩

/-- For the flag-writing instructions and `DrawingTwiceRestoresTheScreen`: registers next to VF. -/
theorem witness_notVF : (14 : Reg) ≠ VF ∧ (0 : Reg) ≠ VF := by decide

/-- For `RandomByteIsMasked`. -/
theorem witness_random : (bench 0 []).inputs = keyFive :: [keyFive] := rfl

/-- For `CallPushesTheReturnAddress`, `ReturnPopsTheReturnAddress` and `ReturnUndoesCall`: both ends. -/
theorem witness_stack : (bench 0 []).sp.val < 15 ∧ ({ bench 0 [] with sp := 14 } : State).sp.val < 15 ∧
    0 < ({ bench 0 [] with sp := 1 } : State).sp.val ∧ 0 < ({ bench 0 [] with sp := 15 } : State).sp.val ∧
    ∃ t, exec (.call 0x300) { bench 0 [] with sp := 14 } = .next t ∧ t.sp = 15 :=
  ⟨by decide, by decide, by decide, by decide, _, rfl, rfl⟩

/-- For the memory instructions, `StoredCodeIsFetched` and the draws: ranges that end at 0xFFF, and the
empty range anywhere. -/
theorem witness_ranges : (bench 0xF133 []).mem.wf (Memory.unlisted params) ∧
    ({ bench 0 [] with i := 0x0FFD } : State).InRange 3 ∧
    ({ bench 0 [] with i := 0x0FF0 } : State).InRange 16 ∧
    ({ bench 0 [] with i := 0x0FFF } : State).InRange 1 ∧
    ({ bench 0 [] with i := 0x0FF1 } : State).InRange 15 ∧
    ({ bench 0 [] with i := 0xFFFF } : State).InRange 0 ∧ (15 : Reg).val = (14 : Reg).val + 1 :=
  ⟨by decide, .inr (by decide), .inr (by decide), .inr (by decide), .inr (by decide), .inl rfl, rfl⟩

/-- For `DrawTogglesExactlyTheSprite`: a pixel that wraps to the left edge, and the last cell of the
buffer under `wrap_origin`. -/
theorem witness_reaches : Reaches { bench 0 [(0, 63), (1, 31)] with i := 0x0050 } 0 1 2 1984 ∧
    Reaches { bench 0 [(0, 62), (1, 31)] with
      i := 0x0050, params := { params with drawMode := .wrapOrigin } } 0 1 2 2047 :=
  ⟨⟨0, 1, by decide, by decide, by decide, by decide⟩, ⟨0, 1, by decide, by decide, by decide, by decide⟩⟩

/-- For `DrawModesAgreeInsideTheEdges`: the last column and row that cross no edge. -/
theorem witness_insideTheEdges : ((bench 0 [(0, 0xF8), (1, 0xF1)]).reg 0).toNat % 64 ≤ 56 ∧
    ((bench 0 [(0, 0xF8), (1, 0xF1)]).reg 1).toNat % 32 + (15 : Nibble).toNat ≤ 32 := by decide

/-- For `KeySkips`: the first and the last key. -/
theorem witness_keyNumbers : ((bench 0 []).reg 2).toNat = (0 : Fin 16).val ∧
    ((bench 0 [(2, 15)]).reg 2).toNat = (15 : Fin 16).val := by decide

/-- For `KeyWaitTakesTheLeastKeyOrPolls`: all keys pressed, only the last one pressed, none pressed. -/
theorem witness_keyWait :
    ({ bench 0 [] with inputs := [{ noKey with keys := Vector.replicate 16 true }] } : State).key 0 = true ∧
    ({ bench 0 [] with inputs := [{ noKey with keys := noKey.keys.set 15 true }] } : State).key 15 = true ∧
    (∀ j : Fin 16, j < 15 →
      ({ bench 0 [] with inputs := [{ noKey with keys := noKey.keys.set 15 true }] } : State).key j = false) ∧
    (∀ k, ({ bench 0xF30A [] with inputs := [noKey] } : State).key k = false) ∧
    ({ bench 0xF30A [] with inputs := [noKey] } : State).Ready ∧
    decodeWord params ({ bench 0xF30A [] with inputs := [noKey] } : State).opcode = .ldVxK 3 :=
  ⟨by decide, by decide, by decide, by decide, ⟨rfl, by decide⟩, by decide⟩

/-- For `RunningMachineAlwaysSteps` and `TimerMoves`. -/
theorem witness_running : (bench 0 []).status = .running := rfl

/-- For `ResetLeavesTheSpecsValues`: addresses on both sides of the glyph table, wherever it is. -/
theorem witness_outsideGlyphs : Config.fontBase.val ≤ 432 ∧ Config.fontBase.val + 80 ≤ 0x200 := by
  have := Config.fontBase.isLt
  omega

/-- For `ProgramLoadCopiesOrFails`: the empty program, the longest that fits, one byte more. -/
theorem witness_programLengths : State.reset.mem.wf (Memory.unlisted State.reset.params) ∧
    ([] : List Byte).length ≤ 3584 ∧ (List.replicate 3584 (0 : Byte)).length ≤ 3584 ∧
    3584 < (List.replicate 3585 (0 : Byte)).length := by
  refine ⟨State.reset_memoryWf, by decide, ?_, ?_⟩
  · rw [List.length_replicate]
  · rw [List.length_replicate]; decide

end Sys2Proof.Tests
end

/-!
PROOFS. Every instruction either raises the fault `faultOf` names or completes, keeping the status and
the parameters; from this, totality of the running machine (O7) and constancy of the parameters (O15).
-/

namespace Sys2Proof.Machine

/-! ### What the shared operations keep -/

namespace State

@[simp] theorem endCycle_status (s : State) : s.endCycle.status = s.status := by
  unfold endCycle; split <;> rfl

@[simp] theorem endCycle_params (s : State) : s.endCycle.params = s.params := by
  unfold endCycle; split <;> rfl

@[simp] theorem writeBytes_status (s : State) (a : Nat) (bs : List Byte) :
    (s.writeBytes a bs).status = s.status := by rw [writeBytes_frame]

theorem withRange_of_rangeFault {s : State} {kind : AccessKind} {count : Nat} {c : FaultCause}
    (h : rangeFault s kind count = some c) (op : Word) (t : State) :
    s.withRange kind (baseAddress s) count op t = .next (s.raise c op) := by
  rw [baseAddress, withRange_eq, h]

theorem withRange_of_no_rangeFault {s : State} {kind : AccessKind} {count : Nat}
    (h : rangeFault s kind count = none) (op : Word) (t : State) :
    s.withRange kind (baseAddress s) count op t = .next t := by
  rw [baseAddress, withRange_eq, h]

end State

@[simp] theorem skipIf_status (s : State) (c : Bool) : (skipIf s c).status = s.status := by
  cases c <;> rfl

@[simp] theorem skipIf_params (s : State) (c : Bool) : (skipIf s c).params = s.params := by
  cases c <;> rfl

@[simp] theorem keyWait_status (x : Reg) (s : State) : (keyWait x s).status = s.status := by
  unfold keyWait; split <;> rfl

@[simp] theorem keyWait_params (x : Reg) (s : State) : (keyWait x s).params = s.params := by
  unfold keyWait; split <;> rfl

/-! ### What an instruction can do -/

/-- An instruction under its fault condition enters that fault, before any effect (R128, R251 to
R254). -/
theorem exec_of_fault {i : Instr} {s : State} {c : FaultCause} (h : faultOf i s = some c) :
    exec i s = .next (s.raise c (encode i)) := by
  cases i
  case ret k =>
    obtain ⟨hsp, rfl⟩ : s.sp.val = 0 ∧ .stackUnderflow s.sp = c := by simpa [faultOf] using h
    exact if_pos (Fin.ext hsp)
  case call nnn =>
    obtain ⟨hsp, rfl⟩ : s.sp.val = 15 ∧ .stackOverflow s.sp = c := by simpa [faultOf] using h
    exact if_pos (Fin.ext hsp)
  case skp x =>
    obtain ⟨hx, rfl⟩ : 15 < (s.reg x).toNat ∧ .keyIndex (s.reg x) = c := by simpa [faultOf] using h
    simp only [exec, execSkp, keyIndex_of_ge (by omega : ¬ (s.reg x).toNat < 16)]
  case sknp x =>
    obtain ⟨hx, rfl⟩ : 15 < (s.reg x).toNat ∧ .keyIndex (s.reg x) = c := by simpa [faultOf] using h
    simp only [exec, execSknp, keyIndex_of_ge (by omega : ¬ (s.reg x).toNat < 16)]
  case drw | ldBVx | storeRegs | loadRegs => exact State.withRange_of_rangeFault h _ _
  all_goals cases h

/-- An instruction outside its fault condition completes, and neither stops the machine nor changes the
parameters. -/
theorem exec_of_no_fault {i : Instr} {s : State} (h : faultOf i s = none) :
    ∃ t, exec i s = .next t ∧ t.status = s.status ∧ t.params = s.params := by
  cases i
  case ret k =>
    have hsp : s.sp.val ≠ 0 := by simpa [faultOf] using h
    exact ⟨_, if_neg (fun e => hsp (congrArg Fin.val e)), rfl, rfl⟩
  case call nnn =>
    have hsp : s.sp.val ≠ 15 := by simpa [faultOf] using h
    exact ⟨_, if_neg (fun e => hsp (congrArg Fin.val e)), rfl, rfl⟩
  case skp x =>
    have hx : (s.reg x).toNat ≤ 15 := by simpa [faultOf] using h
    simp [exec, execSkp, keyIndex_of_lt (by omega : (s.reg x).toNat < 16)]
  case sknp x =>
    have hx : (s.reg x).toNat ≤ 15 := by simpa [faultOf] using h
    simp [exec, execSknp, keyIndex_of_lt (by omega : (s.reg x).toNat < 16)]
  case drw | loadRegs => exact ⟨_, State.withRange_of_no_rangeFault h _ _, rfl, rfl⟩
  case ldBVx | storeRegs =>
    exact ⟨_, State.withRange_of_no_rangeFault h _ _, s.writeBytes_status _ _, s.writeBytes_params _ _⟩
  case seImm | sneImm | seReg | sneReg => exact ⟨_, rfl, skipIf_status s _, skipIf_params s _⟩
  case ldVxK x => exact ⟨_, rfl, keyWait_status x s, keyWait_params x s⟩
  all_goals exact ⟨_, rfl, rfl, rfl⟩

/-- Every instruction has a next state: its fault entered, or its own effect with the status and the
parameters kept. -/
theorem exec_cases (i : Instr) (s : State) :
    ∃ t, exec i s = .next t ∧
      ((∃ c, faultOf i s = some c ∧ t = s.raise c (encode i)) ∨
        (faultOf i s = none ∧ t.status = s.status ∧ t.params = s.params)) := by
  cases h : faultOf i s with
  | some c => exact ⟨_, exec_of_fault h, .inl ⟨c, rfl, rfl⟩⟩
  | none =>
    obtain ⟨t, ht, hkeep⟩ := exec_of_no_fault h
    exact ⟨t, ht, .inr ⟨rfl, hkeep⟩⟩

/-- No instruction stops the machine otherwise than by a fault. -/
theorem exec_status (i : Instr) (s : State) :
    ∃ t, exec i s = .next t ∧ (t.status = s.status ∨ ∃ info, t.status = .faulted info) := by
  obtain ⟨t, ht, ⟨c, -, rfl⟩ | ⟨-, hs, -⟩⟩ := exec_cases i s
  · exact ⟨_, ht, .inr ⟨_, rfl⟩⟩
  · exact ⟨t, ht, .inl hs⟩

/-- No instruction changes the parameters, whether it completes or faults. -/
theorem exec_params {i : Instr} {s t : State} (h : exec i s = .next t) : t.params = s.params := by
  obtain ⟨u, hu, hcase⟩ := exec_cases i s
  obtain rfl : u = t := by simpa [hu] using h
  rcases hcase with ⟨c, -, rfl⟩ | ⟨-, -, hp⟩
  · exact s.raise_params c _
  · exact hp

/-! ### The obligations -/

/-- Settles O7: outside memory the step is the fetch fault, inside it is the end of the cycle of an
instruction, all of which have a next state. -/
theorem runningMachineAlwaysSteps : Obligations.RunningMachineAlwaysSteps := by
  intro s hr
  by_cases hp : s.pc.toNat > 0xFFE
  · exact ⟨_, step_fetchFault hr hp, .inr ⟨_, rfl⟩⟩
  · obtain ⟨u, hu, hs⟩ := exec_status (decodeWord s.params s.opcode) s.advance
    refine ⟨u.endCycle, ?_, ?_⟩
    · rw [step_ready ⟨hr, by omega⟩, hu, finishCycle]
    · rwa [State.endCycle_status, ← hr, ← s.advance_status]

/-- Settles O15, by the cases of a step: a fetch fault, or the end of the cycle of an instruction. -/
theorem parametersNeverChange : Obligations.ParametersNeverChange := by
  intro s t h
  obtain ⟨-, ⟨-, rfl⟩ | ⟨-, u, hu, rfl⟩⟩ := step_cases h
  · exact s.enterFault_params _ _
  · rw [State.endCycle_params, exec_params hu, State.advance_params]

end Sys2Proof.Machine

/-!
PROOFS. The rules about the state: what each instruction leaves unchanged (O14), the invariant that
every step keeps (O13, O12), which instructions see the inputs and the timers (O16 to O18), the machine
that has stopped (O8) and the values after reset (O45).
-/

namespace Sys2Proof.Machine

/-! ### The instructions with a condition, outside their fault -/

theorem exec_ret {s : State} (h : s.sp.val ≠ 0) (k : Nibble) :
    exec (.ret k) s = .next (s.setPc s.top).pop :=
  if_neg fun e => h (congrArg Fin.val e)

theorem exec_call {s : State} (h : s.sp.val ≠ 15) (nnn : Addr) :
    exec (.call nnn) s = .next ((s.push s.pc).setPc (zext16 nnn)) :=
  if_neg fun e => h (congrArg Fin.val e)

theorem exec_skp {s : State} {x : Reg} (h : (s.reg x).toNat < 16) :
    exec (.skp x) s = .next (skipIf s (s.key ⟨(s.reg x).toNat, h⟩)) := by
  simp only [exec, execSkp, keyIndex_of_lt h]

theorem exec_sknp {s : State} {x : Reg} (h : (s.reg x).toNat < 16) :
    exec (.sknp x) s = .next (skipIf s (!s.key ⟨(s.reg x).toNat, h⟩)) := by
  simp only [exec, execSknp, keyIndex_of_lt h]

/-- An outcome is a fault entered before any effect, or the one outside the fault condition. -/
theorem exec_fault_or {i : Instr} {s u : State} (h : exec i s = .next u) :
    (∃ c, u = s.raise c (encode i)) ∨ faultOf i s = none := by
  cases hf : faultOf i s with
  | some c => exact .inl ⟨c, Host.Outcome.next.inj (h.symm.trans (exec_of_fault hf))⟩
  | none => exact .inr rfl

/-! ### The access matrix: each named update writes its own part -/

namespace Untouched

variable {i : Instr} {s t : State}

theorem refl (i : Instr) (s : State) : Untouched i s s := by
  constructor
  case inputs => exact ⟨rfl, rfl⟩
  all_goals intros; rfl

theorem setReg (h : Untouched i s t) {x : Reg} (hw : mayWrite i s (.reg x)) (b : Byte) :
    Untouched i s (t.setReg x b) :=
  { h with
    reg := fun r hr => by
      rw [State.reg_setReg, if_neg (by rintro rfl; exact hr hw), h.reg r hr] }

theorem setI (h : Untouched i s t) (hw : mayWrite i s .addressRegister) (w : Word) :
    Untouched i s (t.setI w) :=
  { h with addressRegister := fun hn => absurd hw hn }

theorem setPc (h : Untouched i s t) (hw : mayWrite i s .counter) (w : Word) :
    Untouched i s (t.setPc w) :=
  { h with counter := fun hn => absurd hw hn }

theorem setDt (h : Untouched i s t) (hw : mayWrite i s .delayTimer) (b : Byte) :
    Untouched i s (t.setDt b) :=
  { h with delayTimer := fun hn => absurd hw hn }

theorem setSt (h : Untouched i s t) (hw : mayWrite i s .soundTimer) (b : Byte) :
    Untouched i s (t.setSt b) :=
  { h with soundTimer := fun hn => absurd hw hn }

theorem setFb (h : Untouched i s t) (hw : mayWrite i s .screen) (f : FrameBuffer) :
    Untouched i s (t.setFb f) :=
  { h with screen := fun hn => absurd hw hn }

theorem pop (h : Untouched i s t) (hw : mayWrite i s .stackPointer) : Untouched i s t.pop :=
  { h with stackPointer := fun hn => absurd hw hn }

theorem push (h : Untouched i s t) (hslot : mayWrite i s (.slot (t.sp + 1)))
    (hw : mayWrite i s .stackPointer) (w : Word) : Untouched i s (t.push w) :=
  { h with
    stackPointer := fun hn => absurd hw hn
    slots := fun k hk => by
      have hne : (t.sp + 1).val ≠ k.val := fun e => hk (Fin.ext e ▸ hslot)
      rw [← h.slots k hk]
      exact Vector.getElem_set_ne (t.sp + 1).isLt k.isLt hne }

theorem setFlagThenReg (h : Untouched i s t) {x : Reg} (hx : mayWrite i s (.reg x))
    (hf : mayWrite i s (.reg VF)) (f : Bool) (r : Byte) : Untouched i s (t.setFlagThenReg x f r) :=
  (h.setReg hf _).setReg hx r

theorem registers (h : Untouched i s t) {v : Vector Byte 16}
    (hv : ∀ r : Reg, ¬ mayWrite i s (.reg r) → v[r] = s.reg r) : Untouched i s { t with v := v } :=
  { h with reg := hv }

theorem loadRange (h : Untouched i s t) {x : Reg} (hw : ∀ r, r ≤ x → mayWrite i s (.reg r)) (a : Nat) :
    Untouched i s (loadRange t x a) :=
  h.registers fun r hr =>
    (reg_loadRange t x r a).trans ((if_neg fun hle => hr (hw r hle)).trans (h.reg r hr))

/-- The key-wait writes Vx if a key is pressed and `pc` if none is (R40, R234). -/
theorem keyWait (x : Reg) (s : State) : Untouched (.ldVxK x) s (keyWait x s) := by
  unfold Machine.keyWait
  split
  · next k hk => exact (refl (.ldVxK x) s).setReg (Or.inl ⟨⟨k, List.find?_some hk⟩, rfl⟩) _
  · next hk => exact (refl (.ldVxK x) s).setPc (Or.inr ⟨firstPressed_eq_none.mp hk, rfl⟩) _

end Untouched

/-- An instruction outside its fault condition writes only what its row of the access matrix lists. -/
theorem exec_untouched {i : Instr} {s : State} (h : faultOf i s = none) :
    ∃ t, exec i s = .next t ∧ Untouched i s t := by
  have same := Untouched.refl i s
  cases i
  case cls => exact ⟨_, rfl, same.setFb rfl _⟩
  case ret k =>
    have hsp : s.sp.val ≠ 0 := by simpa [faultOf] using h
    exact ⟨_, exec_ret hsp k, (same.setPc (.inr rfl) _).pop (.inl rfl)⟩
  case call nnn =>
    have hsp : s.sp.val ≠ 15 := by simpa [faultOf] using h
    have hnew : (s.sp + 1 : Fin 16).val = s.sp.val + 1 := by omega
    exact ⟨_, exec_call hsp nnn,
      (same.push (.inl ⟨_, hnew, rfl⟩) (.inr (.inl rfl)) _).setPc (.inr (.inr rfl)) _⟩
  case jp | jpV0 => exact ⟨_, rfl, same.setPc rfl _⟩
  case seImm => exact ⟨_, rfl, skipIf_untouched fun hc => ⟨eq_of_beq hc, rfl⟩⟩
  case seReg => exact ⟨_, rfl, skipIf_untouched fun hc => ⟨eq_of_beq hc, rfl⟩⟩
  case sneImm => exact ⟨_, rfl, skipIf_untouched fun hc => ⟨bne_iff_ne.mp hc, rfl⟩⟩
  case sneReg => exact ⟨_, rfl, skipIf_untouched fun hc => ⟨bne_iff_ne.mp hc, rfl⟩⟩
  case skp x =>
    have hx : (s.reg x).toNat ≤ 15 := by simpa [faultOf] using h
    exact ⟨_, exec_skp (by omega), skipIf_untouched fun hc => ⟨⟨_, rfl, hc⟩, rfl⟩⟩
  case sknp x =>
    have hx : (s.reg x).toNat ≤ 15 := by simpa [faultOf] using h
    exact ⟨_, exec_sknp (by omega),
      skipIf_untouched fun hc => ⟨⟨_, rfl, Bool.not_eq_eq_eq_not.mp hc⟩, rfl⟩⟩
  case ldImm | addImm | ldReg | orReg | andReg | xorReg | rnd | ldVxDt =>
    exact ⟨_, rfl, same.setReg rfl _⟩
  case addReg | subReg | shr | subnReg | shl =>
    exact ⟨_, rfl, same.setFlagThenReg (.inl rfl) (.inr rfl) _ _⟩
  case ldI | addIVx | ldFVx => exact ⟨_, rfl, same.setI rfl _⟩
  case drw =>
    exact ⟨_, State.withRange_of_no_rangeFault h _ _, (same.setReg (.inl rfl) _).setFb (.inr rfl) _⟩
  case ldVxK x => exact ⟨_, rfl, .keyWait x s⟩
  case ldDtVx => exact ⟨_, rfl, same.setDt rfl _⟩
  case ldStVx => exact ⟨_, rfl, same.setSt rfl _⟩
  case ldBVx x =>
    refine ⟨_, State.withRange_of_no_rangeFault h _ _, writeBytes_untouched fun e he => ?_⟩
    rw [length_decimalDigits]
    by_contra hin
    exact he ⟨e, by omega, by omega, rfl⟩
  case storeRegs x =>
    refine ⟨_, State.withRange_of_no_rangeFault h _ _, writeBytes_untouched fun e he => ?_⟩
    rw [length_rangeBytes]
    by_contra hin
    exact he ⟨e, by omega, by simp only [rangeCount]; omega, rfl⟩
  case loadRegs =>
    exact ⟨_, State.withRange_of_no_rangeFault h _ _, same.loadRange (fun r hr => ⟨r, hr, rfl⟩) _⟩
  case nopUndef => exact ⟨_, rfl, same⟩

/-- Settles O14: the outcome is the one that `exec_untouched` gives. -/
theorem accessMatrixHolds : Obligations.AccessMatrixHolds := by
  intro i s t hf ht
  obtain ⟨u, hu, hkeep⟩ := exec_untouched hf
  obtain rfl : u = t := by simpa [hu] using ht
  exact hkeep

/-! ### The invariant: each named update keeps it under its own condition -/

namespace State.Inv

variable {s : State}

theorem setPc (h : s.Inv) {w : Word} (hw : w.toNat ≤ 0x10FE) : (s.setPc w).Inv :=
  { h with counter := hw }

theorem skipIf (h : s.Inv) (hp : s.pc.toNat ≤ 0x1000) (c : Bool) : (skipIf s c).Inv := by
  cases c
  · exact h
  · exact h.setPc (by bv_omega)

/-- The slot a call fills is above the old `SP`; the slots below keep their bound. -/
theorem push (h : s.Inv) (hsp : s.sp.val ≠ 15) {w : Word} (hw : w.toNat ≤ 0x1000) :
    (s.push w).Inv :=
  { h with
    returns := fun k hk hle => by
      have hnew : (s.sp + 1 : Fin 16).val = s.sp.val + 1 := by omega
      simp only [push_sp, push_stack, Fin.getElem_fin, Vector.getElem_set] at hle ⊢
      split
      · exact hw
      · exact h.returns k hk (by omega) }

theorem pop (h : s.Inv) (hsp : s.sp.val ≠ 0) : s.pop.Inv :=
  { h with
    returns := fun k hk hle => by
      have hold : (s.sp - 1 : Fin 16).val = s.sp.val - 1 := by omega
      rw [pop_sp] at hle
      exact h.returns k hk (by omega) }

theorem top_le (h : s.Inv) (hsp : s.sp.val ≠ 0) : s.top.toNat ≤ 0x1000 :=
  h.returns s.sp (by omega) le_rfl

theorem writeBytes (h : s.Inv) (a : Nat) (bs : List Byte) : (s.writeBytes a bs).Inv := by
  have hm := writeBytes_memoryWf h.memory a bs
  rw [writeBytes_frame] at hm ⊢
  exact { h with memory := hm }

theorem keyWait (h : s.Inv) (hp : 2 ≤ s.pc.toNat) (x : Reg) : (keyWait x s).Inv := by
  have := h.counter
  unfold Machine.keyWait
  split
  · exact { h with }
  · exact h.setPc (by bv_omega)

theorem endCycle (h : s.Inv) : s.endCycle.Inv := by
  unfold State.endCycle
  split <;> exact { h with }

end State.Inv

theorem toNat_zext16_addr_le (nnn : Addr) : (zext16 nnn).toNat ≤ 0xFFF := by
  rw [zext16, BitVec.toNat_setWidth]; omega

theorem toNat_zext16_byte_le (b : Byte) : (zext16 b).toNat ≤ 0xFF := by
  rw [zext16, BitVec.toNat_setWidth]; omega

/-- In step 5 `pc` is at most 0x1000: a return address is that `pc`, and a skip adds 2 to it; a jump
reaches at most 0xFFF + 0xFF. -/
theorem exec_inv {i : Instr} {s : State} (h : s.Inv) (hlo : 2 ≤ s.pc.toNat)
    (hhi : s.pc.toNat ≤ 0x1000) (hf : faultOf i s = none) : ∃ t, exec i s = .next t ∧ t.Inv := by
  cases i
  case ret k =>
    have hsp : s.sp.val ≠ 0 := by simpa [faultOf] using hf
    have htop := h.top_le hsp
    exact ⟨_, exec_ret hsp k, (h.setPc (by omega)).pop hsp⟩
  case call nnn =>
    have hsp : s.sp.val ≠ 15 := by simpa [faultOf] using hf
    have ha := toNat_zext16_addr_le nnn
    exact ⟨_, exec_call hsp nnn, (h.push hsp hhi).setPc (by omega)⟩
  case jp nnn =>
    have ha := toNat_zext16_addr_le nnn
    exact ⟨_, rfl, h.setPc (by omega)⟩
  case jpV0 nnn =>
    have ha := toNat_zext16_addr_le nnn
    have hb := toNat_zext16_byte_le (s.reg 0)
    exact ⟨_, rfl, h.setPc (by bv_omega)⟩
  case seImm | sneImm | seReg | sneReg => exact ⟨_, rfl, h.skipIf hhi _⟩
  case skp x =>
    have hx : (s.reg x).toNat ≤ 15 := by simpa [faultOf] using hf
    exact ⟨_, exec_skp (by omega), h.skipIf hhi _⟩
  case sknp x =>
    have hx : (s.reg x).toNat ≤ 15 := by simpa [faultOf] using hf
    exact ⟨_, exec_sknp (by omega), h.skipIf hhi _⟩
  case ldVxK x => exact ⟨_, rfl, h.keyWait hlo x⟩
  case ldBVx | storeRegs => exact ⟨_, State.withRange_of_no_rangeFault hf _ _, h.writeBytes _ _⟩
  case drw | loadRegs => exact ⟨_, State.withRange_of_no_rangeFault hf _ _, { h with }⟩
  all_goals exact ⟨_, rfl, { h with }⟩

/-- Settles O13, by the cases of a step: a fetch fault and a fault of step 5 leave `pc` where it was,
and an instruction that completes keeps the invariant by `exec_inv`. -/
theorem everyStepKeepsTheInvariant : Obligations.EveryStepKeepsTheInvariant := by
  intro s t h hstep
  obtain ⟨-, ⟨-, rfl⟩ | ⟨hp, u, hu, rfl⟩⟩ := step_cases hstep
  · exact { h with }
  · refine State.Inv.endCycle ?_
    obtain ⟨c, rfl⟩ | hf := exec_fault_or hu
    · exact { h with counter := by simp only [State.raise_pc, State.advance_pc]; bv_omega }
    · have hpc : s.advance.pc.toNat = s.pc.toNat + 2 := by rw [State.advance_pc]; bv_omega
      have hadv : s.advance.Inv := h.setPc (by rw [← s.advance_pc]; omega)
      obtain ⟨v, hv, hinv⟩ := exec_inv hadv (by omega) (by omega) hf
      obtain rfl : v = u := by simpa [hv] using hu
      exact hinv

/-- Settles O12: memory lists nothing, `SP` is 0 and `pc` is 0x200. -/
theorem resetStateMeetsTheInvariant : Obligations.ResetStateMeetsTheInvariant where
  memory := State.reset_memoryWf
  returns _ hk hle := absurd (Nat.lt_of_lt_of_le hk hle) (Nat.lt_irrefl 0)
  counter := by decide

/-! ### The timers and the inputs beside the instructions that read them -/

/-- The state with other timers and other inputs. -/
def State.mapTimersInputs (fd fs : Byte → Byte) (fi : List Inputs → List Inputs) (s : State) : State :=
  { s with dt := fd s.dt, st := fs s.st, inputs := fi s.inputs }

section

variable {fd fs : Byte → Byte} {fi : List Inputs → List Inputs}

theorem readBytes_mapTimersInputs (s : State) (a n : Nat) :
    (s.mapTimersInputs fd fs fi).readBytes a n = s.readBytes a n := by
  induction n generalizing a with
  | zero => rfl
  | succ n ih => exact congrArg (s.readByte a :: ·) (ih (a + 1))

theorem writeByte_mapTimersInputs (s : State) (a : Nat) (b : Byte) :
    (s.mapTimersInputs fd fs fi).writeByte a b = (s.writeByte a b).mapTimersInputs fd fs fi := by
  unfold State.writeByte
  split <;> rfl

theorem writeBytes_mapTimersInputs (s : State) (a : Nat) (bs : List Byte) :
    (s.mapTimersInputs fd fs fi).writeBytes a bs = (s.writeBytes a bs).mapTimersInputs fd fs fi := by
  induction bs generalizing s a with
  | nil => rfl
  | cons b bs ih =>
    simp only [State.writeBytes]
    rw [writeByte_mapTimersInputs, ih]

theorem skipIf_mapTimersInputs (s : State) (c : Bool) :
    skipIf (s.mapTimersInputs fd fs fi) c = (skipIf s c).mapTimersInputs fd fs fi := by
  cases c <;> rfl

theorem drawnFrom_mapTimersInputs (x y : Reg) (n : Nibble) (s : State) :
    drawnFrom x y n (s.mapTimersInputs fd fs fi) = drawnFrom x y n s :=
  congrArg (drawSprite s.params.drawMode (s.reg x) (s.reg y) · s.fb) (readBytes_mapTimersInputs s _ _)

theorem keyWait_mapTimersInputs (x : Reg) (s : State) :
    keyWait x (s.mapTimersInputs fd fs id) = (keyWait x s).mapTimersInputs fd fs id := by
  have hk : firstPressed (s.mapTimersInputs fd fs id) = firstPressed s := rfl
  unfold keyWait
  rw [hk]
  split <;> rfl

theorem faultOf_mapTimersInputs (i : Instr) (s : State) :
    faultOf i (s.mapTimersInputs fd fs fi) = faultOf i s := by
  cases i <;> rfl

/-- From what `i` does in `s` and in `f s` to what it does with `f`. -/
theorem exec_eq_mapNext {i : Instr} {s t : State} {f : State → State} (hs : exec i s = .next t)
    (hf : exec i (f s) = .next (f t)) : exec i (f s) = mapNext f (exec i s) := by
  rw [hs, hf, mapNext]

/-- The timers and the inputs take no part in an instruction that neither reads nor writes them. -/
theorem exec_mapTimersInputs {i : Instr} (s : State)
    (hd : fd = id ∨ ∀ x, i ≠ .ldVxDt x ∧ i ≠ .ldDtVx x) (hs : fs = id ∨ ∀ x, i ≠ .ldStVx x)
    (hi : fi = id ∨ ignoresInputs i) :
    exec i (s.mapTimersInputs fd fs fi) = mapNext (State.mapTimersInputs fd fs fi) (exec i s) := by
  have hf' := faultOf_mapTimersInputs (fd := fd) (fs := fs) (fi := fi) i s
  cases hf : faultOf i s with
  | some c => exact exec_eq_mapNext (exec_of_fault hf) (exec_of_fault (hf'.trans hf))
  | none =>
    rw [hf] at hf'
    cases i
    case ldVxDt x | ldDtVx x =>
      obtain rfl := hd.resolve_right (by simp)
      rfl
    case ldStVx x =>
      obtain rfl := hs.resolve_right (by simp)
      rfl
    case rnd x nn =>
      obtain rfl := hi.resolve_right (by simp [ignoresInputs])
      rfl
    case ldVxK x =>
      obtain rfl := hi.resolve_right (by simp [ignoresInputs])
      exact congrArg Host.Outcome.next (keyWait_mapTimersInputs x s)
    case skp x =>
      obtain rfl := hi.resolve_right (by simp [ignoresInputs])
      have hx : (s.reg x).toNat < 16 := by simpa [faultOf, Nat.lt_succ_iff] using hf
      exact exec_eq_mapNext (exec_skp hx)
        ((exec_skp (s := s.mapTimersInputs fd fs id) hx).trans
          (congrArg Host.Outcome.next (skipIf_mapTimersInputs s _)))
    case sknp x =>
      obtain rfl := hi.resolve_right (by simp [ignoresInputs])
      have hx : (s.reg x).toNat < 16 := by simpa [faultOf, Nat.lt_succ_iff] using hf
      exact exec_eq_mapNext (exec_sknp hx)
        ((exec_sknp (s := s.mapTimersInputs fd fs id) hx).trans
          (congrArg Host.Outcome.next (skipIf_mapTimersInputs s _)))
    case ret k =>
      have hsp : s.sp.val ≠ 0 := by simpa [faultOf] using hf
      exact exec_eq_mapNext (exec_ret hsp k) (exec_ret (s := s.mapTimersInputs fd fs fi) hsp k)
    case call nnn =>
      have hsp : s.sp.val ≠ 15 := by simpa [faultOf] using hf
      exact exec_eq_mapNext (exec_call hsp nnn) (exec_call (s := s.mapTimersInputs fd fs fi) hsp nnn)
    case seImm | sneImm | seReg | sneReg =>
      exact congrArg Host.Outcome.next (skipIf_mapTimersInputs s _)
    case drw x y n =>
      refine exec_eq_mapNext (State.withRange_of_no_rangeFault hf _ _)
        ((State.withRange_of_no_rangeFault hf' _ _).trans ?_)
      rw [drawnFrom_mapTimersInputs]
      rfl
    case ldBVx | storeRegs =>
      exact exec_eq_mapNext (State.withRange_of_no_rangeFault hf _ _)
        ((State.withRange_of_no_rangeFault hf' _ _).trans
          (congrArg Host.Outcome.next (writeBytes_mapTimersInputs s _ _)))
    case loadRegs =>
      exact exec_eq_mapNext (State.withRange_of_no_rangeFault hf _ _)
        (State.withRange_of_no_rangeFault hf' _ _)
    all_goals rfl

end

/-- Settles O16: with the timers kept, `exec_mapTimersInputs` is the statement. -/
theorem otherInstructionsIgnoreTheInputs : Obligations.OtherInstructionsIgnoreTheInputs :=
  fun _ s l hi => exec_mapTimersInputs (fd := id) (fs := id) (fi := fun _ => l) s (.inl rfl) (.inl rfl)
    (.inr hi)

/-! ### The timers over a whole cycle -/

/-- A cycle that ends running ran an instruction that did not fault, kept what it does not write, and
let the timers decay. -/
theorem step_running {s t : State} (h : step s = .next t) (ht : t.status = .running) :
    ∃ u, exec (decodeWord s.params s.opcode) s.advance = .next u ∧
      Untouched (decodeWord s.params s.opcode) s.advance u ∧ t = afterDecay u := by
  obtain ⟨-, ⟨-, rfl⟩ | ⟨-, u, hu, rfl⟩⟩ := step_cases h
  · cases ht
  · rw [State.endCycle_status] at ht
    refine ⟨u, hu, ?_, State.endCycle_running ht⟩
    obtain ⟨c, rfl⟩ | hf := exec_fault_or hu
    · cases ht
    · exact accessMatrixHolds _ _ _ hf hu

/-- The decay takes one from a timer and stops at 0 (R126). -/
theorem toNat_decayed (b : Byte) : (State.decayed b).toNat = b.toNat - 1 := by
  unfold State.decayed
  split
  · subst b; rfl
  · bv_omega

theorem toNat_afterDecay_dt (u : State) : (afterDecay u).dt.toNat = u.dt.toNat - 1 :=
  toNat_decayed u.dt

theorem toNat_afterDecay_st (u : State) : (afterDecay u).st.toNat = u.st.toNat - 1 :=
  toNat_decayed u.st

/-- `Fx15` alone writes `DT` (R40). -/
theorem mayWrite_delayTimer {i : Instr} {s : State} :
    mayWrite i s .delayTimer ↔ ∃ x, i = .ldDtVx x := by
  cases i <;> simp [mayWrite]

/-- `Fx18` alone writes `ST` (R40). -/
theorem mayWrite_soundTimer {i : Instr} {s : State} :
    mayWrite i s .soundTimer ↔ ∃ x, i = .ldStVx x := by
  cases i <;> simp [mayWrite]

/-- Settles O17: a running cycle by `step_running`, the instructions but `Fx07` and `Fx15` by
`exec_mapTimersInputs`. -/
theorem delayTimerFollowsItsRule : Obligations.DelayTimerFollowsItsRule := by
  refine ⟨fun s t _ h ht => ?_, fun i s b hr => ?_⟩
  · obtain ⟨u, hu, hkeep, rfl⟩ := step_running h ht
    refine ⟨?_, fun x hx => ?_⟩
    · rw [toNat_afterDecay_dt]
      split
      · next x hx =>
        rw [hx] at hu
        obtain rfl : s.advance.setDt (s.reg x) = u := Host.Outcome.next.inj hu
        rfl
      · next hother =>
        rw [hkeep.delayTimer fun hw => (mayWrite_delayTimer.mp hw).elim hother, s.advance_dt]
    · rw [hx] at hu
      obtain rfl : s.advance.setReg x s.dt = u := Host.Outcome.next.inj hu
      exact (State.reg_setReg _ x x _).trans (if_pos rfl)
  · cases i
    case ldVxDt x => exact absurd rfl (hr x)
    case ldDtVx => rfl
    all_goals
      exact exec_mapTimersInputs (fd := fun _ => b) (fs := id) (fi := id) s
        (.inr fun _ => ⟨nofun, nofun⟩) (.inl rfl) (.inl rfl)

/-- Settles O18: a running cycle by `step_running`, the instructions but `Fx18` by
`exec_mapTimersInputs`. -/
theorem soundTimerFollowsItsRule : Obligations.SoundTimerFollowsItsRule := by
  refine ⟨fun s t _ h ht => ?_, fun i s b => ?_⟩
  · obtain ⟨u, hu, hkeep, rfl⟩ := step_running h ht
    rw [toNat_afterDecay_st]
    split
    · next x hx =>
      rw [hx] at hu
      obtain rfl : s.advance.setSt (s.reg x) = u := Host.Outcome.next.inj hu
      rfl
    · next hother =>
      rw [hkeep.soundTimer fun hw => (mayWrite_soundTimer.mp hw).elim hother, s.advance_st]
  · cases i
    case ldStVx => rfl
    all_goals
      exact exec_mapTimersInputs (fd := id) (fs := fun _ => b) (fi := id) s
        (.inl rfl) (.inr nofun) (.inl rfl)

/-! ### The stopped machine and the reset state -/

theorem step_stuck {s : State} {r : Fault} (h : s.stuck = some r) : step s = .fault r := by
  unfold step
  rw [h]

/-- Settles O8: neither status has a step. -/
theorem stoppedMachineHasNoStep : Obligations.StoppedMachineHasNoStep := fun s =>
  ⟨fun _ h => step_stuck (by rw [State.stuck, h]), fun _ h => step_stuck (by rw [State.stuck, h])⟩

/-- In the glyph table an unlisted address reads as the glyph byte that stands there. -/
theorem Memory.unlisted_glyph (p : Config.Params) (k : Fin 80) :
    Memory.unlisted p (p.fontBase.val + k.val) = p.glyphs[k] := by
  have := p.fontBase.isLt
  simp only [Memory.unlisted, Config.progBase, Config.fontLen]
  rw [if_pos (by omega), dif_pos (by omega)]
  simp

/-- Outside the glyph table an unlisted address reads as 0. -/
theorem Memory.unlisted_outside (p : Config.Params) {a : Nat}
    (ha : a < p.fontBase.val ∨ p.fontBase.val + 80 ≤ a) : Memory.unlisted p a = 0 := by
  simp only [Memory.unlisted, Config.fontLen]
  rw [dif_neg (by omega), ite_self]

/-- Settles O45: the fields by definition, memory by what an address that it does not list reads as. -/
theorem resetLeavesTheSpecsValues : Obligations.ResetLeavesTheSpecsValues :=
  ⟨rfl, rfl, rfl, fun _ => Vector.getElem_replicate _, rfl, rfl, rfl,
    fun _ => Vector.getElem_replicate _, fun _ => BitVec.getLsbD_zero,
    Memory.unlisted_glyph defaultParams, fun _ => Memory.unlisted_outside defaultParams⟩

end Sys2Proof.Machine

/-!
PROOFS. Memory is one space for data and code: what `Fx55` stores is what a later fetch reads (O36).
-/

namespace Sys2Proof.Machine

/-- The first byte of an opcode counts 256 (R63). -/
theorem composeOpcode_eq_ofNat (hi lo : Byte) :
    composeOpcode hi lo = BitVec.ofNat 16 (hi.toNat * 256 + lo.toNat) := by
  have happend : (hi ++ lo).toNat = hi.toNat * 256 + lo.toNat := by
    rw [BitVec.toNat_append, ← Nat.shiftLeft_add_eq_or_of_lt lo.isLt, Nat.shiftLeft_eq]
  rw [composeOpcode, ← happend, BitVec.ofNat_toNat, BitVec.setWidth_eq]

theorem exec_storeRegs {x : Reg} {s : State} (h : s.InRange (x.val + 1)) :
    exec (.storeRegs x) s = .next (s.writeBytes s.i.toNat (rangeBytes s x)) :=
  State.withRange_inRange h _ _ _

/-- After `Fx55` each stored register stands at its place from `I` on (R194). -/
theorem readByte_writeBytes_rangeBytes {x k : Reg} {s : State} (hm : s.MemoryWf)
    (h : s.InRange (x.val + 1)) (hk : k.val ≤ x.val) :
    (s.writeBytes s.i.toNat (rangeBytes s x)).readByte (s.i.toNat + k.val) = s.reg k := by
  have hlen := length_rangeBytes s x
  have hfits : s.i.toNat + (rangeBytes s x).length ≤ Config.memSize := by
    simp only [State.InRange, Config.memSize] at h ⊢
    omega
  rw [State.readByte_writeBytes hm hfits, dif_pos (by omega)]
  simp only [Nat.add_sub_cancel_left, getElem_rangeBytes]

/-- Settles O36: the fetch is inside memory, and its two bytes are the stored registers. -/
theorem storedCodeIsFetched : Obligations.StoredCodeIsFetched := by
  intro x s hm h
  refine ⟨_, exec_storeRegs h, fun j k hjk hk => ?_⟩
  have hin : s.i.toNat + x.val ≤ 0xFFF := by unfold State.InRange at h; omega
  have hpc : (s.i + BitVec.ofNat 16 j.val).toNat = s.i.toNat + j.val := by bv_omega
  have hkx : k.val ≤ x.val := hk
  rw [State.fetch_inside (show (s.i + BitVec.ofNat 16 j.val).toNat ≤ 0xFFE by omega),
    ← composeOpcode_eq_ofNat, ← readByte_writeBytes_rangeBytes hm h (by omega : j.val ≤ x.val),
    ← readByte_writeBytes_rangeBytes hm h hkx, hjk, ← Nat.add_assoc, ← hpc]
  rfl

end Sys2Proof.Machine

/-!
PROOFS. The decoder and the encoder are inverse to each other and follow the opcode map (O1 to O4).
Three facts give all of it: a well-formed instruction comes back from its word; a value that a row
matches is the word of a well-formed instruction of that row; a value in no row is the no-op entry.
-/

namespace Sys2Proof.Laws

/-! ### From an instruction to its word and back -/

/-- Every instruction has its round trip. -/
theorem roundTrip : ∀ i : Instr, RoundTrip.Statement i
  | .cls k => RoundTrip.cls k
  | .ret k => RoundTrip.ret k
  | .jp nnn => RoundTrip.jp nnn
  | .call nnn => RoundTrip.call nnn
  | .seImm x nn => RoundTrip.seImm x nn
  | .sneImm x nn => RoundTrip.sneImm x nn
  | .seReg x y low => RoundTrip.seReg x y low
  | .ldImm x nn => RoundTrip.ldImm x nn
  | .addImm x nn => RoundTrip.addImm x nn
  | .ldReg x y => RoundTrip.ldReg x y
  | .orReg x y => RoundTrip.orReg x y
  | .andReg x y => RoundTrip.andReg x y
  | .xorReg x y => RoundTrip.xorReg x y
  | .addReg x y => RoundTrip.addReg x y
  | .subReg x y => RoundTrip.subReg x y
  | .shr x y => RoundTrip.shr x y
  | .subnReg x y => RoundTrip.subnReg x y
  | .shl x y => RoundTrip.shl x y
  | .sneReg x y low => RoundTrip.sneReg x y low
  | .ldI nnn => RoundTrip.ldI nnn
  | .jpV0 nnn => RoundTrip.jpV0 nnn
  | .rnd x nn => RoundTrip.rnd x nn
  | .drw x y n => RoundTrip.drw x y n
  | .skp x => RoundTrip.skp x
  | .sknp x => RoundTrip.sknp x
  | .ldVxDt x => RoundTrip.ldVxDt x
  | .ldVxK x => RoundTrip.ldVxK x
  | .ldDtVx x => RoundTrip.ldDtVx x
  | .ldStVx x => RoundTrip.ldStVx x
  | .addIVx x => RoundTrip.addIVx x
  | .ldFVx x => RoundTrip.ldFVx x
  | .ldBVx x => RoundTrip.ldBVx x
  | .storeRegs x => RoundTrip.storeRegs x
  | .loadRegs x => RoundTrip.loadRegs x
  | .nopUndef op => RoundTrip.nopUndef op

/-- Settles O2: the two bytes are those of the instruction's word, which decodes back. -/
theorem encodedInstructionsDecodeBack : Obligations.EncodedInstructionsDecodeBack := by
  intro p i rest h
  rw [encodeBytes, decode_wordBytes, roundTrip i p h]

/-! ### A value that a row matches, written out from its fields -/

section

variable {p : Config.Params} {op : Word} {g : Nibble}

theorem eq_nnn_of_hits (h : OpcodeRow.hits ⟨g ++ 0#12, 0xF000⟩ op = true) :
    g ++ fieldNNN op = op := by
  rw [← (hits_F000 op g).mp h, word_nnn]

theorem eq_xnn_of_hits (h : OpcodeRow.hits ⟨g ++ 0#12, 0xF000⟩ op = true) :
    g ++ regBits (fieldX op) ++ fieldNN op = op := by
  rw [regBits_fieldX, ← (hits_F000 op g).mp h, word_xnn]

theorem eq_xyn_of_hits (h : OpcodeRow.hits ⟨g ++ 0#12, 0xF000⟩ op = true) :
    g ++ regBits (fieldX op) ++ regBits (fieldY op) ++ fieldN op = op := by
  rw [regBits_fieldX, regBits_fieldY, ← (hits_F000 op g).mp h, word_xyn]

theorem eq_xy_of_hits {n : Nibble} (h : OpcodeRow.hits ⟨g ++ 0#8 ++ n, 0xF00F⟩ op = true) :
    g ++ regBits (fieldX op) ++ regBits (fieldY op) ++ n = op := by
  obtain ⟨hg, hn⟩ := (hits_F00F op g n).mp h
  rw [regBits_fieldX, regBits_fieldY, ← hg, ← hn, word_xyn]

theorem eq_x_of_hits {b : Byte} (h : OpcodeRow.hits ⟨g ++ 0#4 ++ b, 0xF0FF⟩ op = true) :
    g ++ regBits (fieldX op) ++ b = op := by
  obtain ⟨hg, hb⟩ := (hits_F0FF op g b).mp h
  rw [regBits_fieldX, ← hg, ← hb, word_xnn]

/-- The rows of group 0: the ignored nibble is 0 under `STRICT_GROUP0` (R96). -/
theorem eq_groupZero_of_hits {b : Byte}
    (h : OpcodeRow.hits ⟨0#4 ++ 0#4 ++ b, if p.strictGroup0 then 0xFFFF else 0xF0FF⟩ op = true) :
    (!p.strictGroup0 || fieldXBits op == 0) = true ∧ 0#4 ++ fieldXBits op ++ b = op := by
  cases hp : p.strictGroup0 <;> rw [hp] at h
  · exact ⟨rfl, eq_x_of_hits h⟩
  · obtain ⟨hg, hx, hb⟩ := (hits_FFFF op 0 b).mp h
    refine ⟨beq_iff_eq.mpr hx, ?_⟩
    rw [← hb, ← word_xnn op, hg]
    simp

/-- The rows of groups 5 and 9: the low nibble is 0 unless `LENIENT_59` (R97). -/
theorem eq_registerSkip_of_hits
    (h : OpcodeRow.hits ⟨g ++ 0#8 ++ 0#4, if p.lenient59 then 0xF000 else 0xF00F⟩ op = true) :
    (p.lenient59 || fieldN op == 0) = true ∧
      g ++ regBits (fieldX op) ++ regBits (fieldY op) ++ fieldN op = op := by
  cases hp : p.lenient59 <;> rw [hp] at h
  · have hn : fieldN op = 0 := ((hits_F00F op g 0).mp h).2
    exact ⟨beq_iff_eq.mpr hn, hn ▸ eq_xy_of_hits h⟩
  · have zeros : g ++ 0#8 ++ 0#4 = g ++ 0#12 := BitVec.append_assoc
    rw [zeros] at h
    exact ⟨rfl, eq_xyn_of_hits h⟩

end

/-! ### From a value to its instruction -/

/-- The value `op` is the word of a well-formed instruction of row `k`. -/
def IsWordOfRow (p : Config.Params) (op : Word) (k : Nat) : Prop :=
  ∃ i : Instr, i.wf p = true ∧ encode i = op ∧ i.rowNumber = k

/-- A value that row `k` matches is the word of the instruction that the row reads off its fields. -/
theorem isWordOfRow_of_hits {p : Config.Params} {op : Word} {k : Nat} {r : OpcodeRow}
    (hr : (opcodeRows p)[k]? = some r) (h : r.hits op = true) : IsWordOfRow p op k := by
  have hk : k < 34 := (List.getElem?_eq_some_iff.mp hr).1
  interval_cases k <;> obtain rfl := Option.some.inj hr
  · obtain ⟨hwf, hop⟩ := eq_groupZero_of_hits (p := p) (b := 0xE0) h
    exact ⟨.cls _, hwf, hop, rfl⟩
  · obtain ⟨hwf, hop⟩ := eq_groupZero_of_hits (p := p) (b := 0xEE) h
    exact ⟨.ret _, hwf, hop, rfl⟩
  · exact ⟨.jp _, rfl, eq_nnn_of_hits (g := 1) h, rfl⟩
  · exact ⟨.call _, rfl, eq_nnn_of_hits (g := 2) h, rfl⟩
  · exact ⟨.seImm _ _, rfl, eq_xnn_of_hits (g := 3) h, rfl⟩
  · exact ⟨.sneImm _ _, rfl, eq_xnn_of_hits (g := 4) h, rfl⟩
  · obtain ⟨hwf, hop⟩ := eq_registerSkip_of_hits (p := p) (g := 5) h
    exact ⟨.seReg _ _ _, hwf, hop, rfl⟩
  · exact ⟨.ldImm _ _, rfl, eq_xnn_of_hits (g := 6) h, rfl⟩
  · exact ⟨.addImm _ _, rfl, eq_xnn_of_hits (g := 7) h, rfl⟩
  · exact ⟨.ldReg _ _, rfl, eq_xy_of_hits (g := 8) (n := 0) h, rfl⟩
  · exact ⟨.orReg _ _, rfl, eq_xy_of_hits (g := 8) (n := 1) h, rfl⟩
  · exact ⟨.andReg _ _, rfl, eq_xy_of_hits (g := 8) (n := 2) h, rfl⟩
  · exact ⟨.xorReg _ _, rfl, eq_xy_of_hits (g := 8) (n := 3) h, rfl⟩
  · exact ⟨.addReg _ _, rfl, eq_xy_of_hits (g := 8) (n := 4) h, rfl⟩
  · exact ⟨.subReg _ _, rfl, eq_xy_of_hits (g := 8) (n := 5) h, rfl⟩
  · exact ⟨.shr _ _, rfl, eq_xy_of_hits (g := 8) (n := 6) h, rfl⟩
  · exact ⟨.subnReg _ _, rfl, eq_xy_of_hits (g := 8) (n := 7) h, rfl⟩
  · exact ⟨.shl _ _, rfl, eq_xy_of_hits (g := 8) (n := 0xE) h, rfl⟩
  · obtain ⟨hwf, hop⟩ := eq_registerSkip_of_hits (p := p) (g := 9) h
    exact ⟨.sneReg _ _ _, hwf, hop, rfl⟩
  · exact ⟨.ldI _, rfl, eq_nnn_of_hits (g := 0xA) h, rfl⟩
  · exact ⟨.jpV0 _, rfl, eq_nnn_of_hits (g := 0xB) h, rfl⟩
  · exact ⟨.rnd _ _, rfl, eq_xnn_of_hits (g := 0xC) h, rfl⟩
  · exact ⟨.drw _ _ _, rfl, eq_xyn_of_hits (g := 0xD) h, rfl⟩
  · exact ⟨.skp _, rfl, eq_x_of_hits (g := 0xE) (b := 0x9E) h, rfl⟩
  · exact ⟨.sknp _, rfl, eq_x_of_hits (g := 0xE) (b := 0xA1) h, rfl⟩
  · exact ⟨.ldVxDt _, rfl, eq_x_of_hits (g := 0xF) (b := 0x07) h, rfl⟩
  · exact ⟨.ldVxK _, rfl, eq_x_of_hits (g := 0xF) (b := 0x0A) h, rfl⟩
  · exact ⟨.ldDtVx _, rfl, eq_x_of_hits (g := 0xF) (b := 0x15) h, rfl⟩
  · exact ⟨.ldStVx _, rfl, eq_x_of_hits (g := 0xF) (b := 0x18) h, rfl⟩
  · exact ⟨.addIVx _, rfl, eq_x_of_hits (g := 0xF) (b := 0x1E) h, rfl⟩
  · exact ⟨.ldFVx _, rfl, eq_x_of_hits (g := 0xF) (b := 0x29) h, rfl⟩
  · exact ⟨.ldBVx _, rfl, eq_x_of_hits (g := 0xF) (b := 0x33) h, rfl⟩
  · exact ⟨.storeRegs _, rfl, eq_x_of_hits (g := 0xF) (b := 0x55) h, rfl⟩
  · exact ⟨.loadRegs _, rfl, eq_x_of_hits (g := 0xF) (b := 0x65) h, rfl⟩

/-- A matching row gives the place of the decoded instruction in the map. -/
theorem rowNumber_of_hits {p : Config.Params} {op : Word} {k : Nat} {r : OpcodeRow}
    (hr : (opcodeRows p)[k]? = some r) (h : r.hits op = true) : (decodeWord p op).rowNumber = k := by
  obtain ⟨i, hwf, rfl, hk⟩ := isWordOfRow_of_hits hr h
  rw [roundTrip i p hwf, hk]

/-- Every value is in no row or in a row that stands somewhere in the map. -/
theorem isUndefined_or_hits (p : Config.Params) (op : Word) :
    isUndefined p op = true ∨ ∃ (k : Nat) (r : OpcodeRow), (opcodeRows p)[k]? = some r ∧ r.hits op = true := by
  cases hu : isUndefined p op
  case true => exact .inl rfl
  case false =>
    obtain ⟨r, hmem, hr⟩ := List.all_eq_false.mp hu
    obtain ⟨k, hk⟩ := List.getElem?_of_mem hmem
    exact .inr ⟨k, r, hk, by simpa using hr⟩

/-- Every value is the word of a well-formed instruction, of a row or of the no-op entry. -/
theorem exists_encode_eq (p : Config.Params) (op : Word) :
    ∃ i : Instr, i.wf p = true ∧ encode i = op := by
  obtain hu | ⟨k, r, hr, h⟩ := isUndefined_or_hits p op
  · exact ⟨.nopUndef op, hu, rfl⟩
  · obtain ⟨i, hwf, hop, -⟩ := isWordOfRow_of_hits hr h
    exact ⟨i, hwf, hop⟩

/-- Settles O3: the value is the word of a well-formed instruction, and decodes to it. -/
theorem everyWordIsRebuiltFromItsInstruction : Obligations.EveryWordIsRebuiltFromItsInstruction := by
  intro p op
  obtain ⟨i, hwf, rfl⟩ := exists_encode_eq p op
  rw [roundTrip i p hwf]
  exact ⟨hwf, rfl⟩

/-! ### The opcode map -/

theorem hits_iff {r : OpcodeRow} {op : Word} : r.hits op = true ↔ op &&& r.mask = r.pattern :=
  beq_iff_eq

theorem isUndefined_iff {p : Config.Params} {op : Word} :
    isUndefined p op = true ↔ ∀ r ∈ opcodeRows p, op &&& r.mask ≠ r.pattern := by
  simp [isUndefined, OpcodeRow.hits]

/-- An instruction with a row's number was decoded from a value of that row: the no-op entry has the
number 34, and of the rows only one can match. -/
theorem hits_of_rowNumber {p : Config.Params} {op : Word} {k : Nat} {r : OpcodeRow}
    (hr : (opcodeRows p)[k]? = some r) (hk : (decodeWord p op).rowNumber = k) : r.hits op = true := by
  have hlt : k < 34 := (List.getElem?_eq_some_iff.mp hr).1
  obtain hu | ⟨k', r', hr', h'⟩ := isUndefined_or_hits p op
  · rw [decodeWord_of_isUndefined p op hu] at hk
    exact absurd hk hlt.ne'
  · obtain rfl : k' = k := (rowNumber_of_hits hr' h').symm.trans hk
    obtain rfl : r' = r := Option.some.inj (hr'.symm.trans hr)
    exact h'

/-- The no-op entry is decoded only from a value in no row: by the round trip it is well formed. -/
theorem isUndefined_of_decodeWord {p : Config.Params} {op : Word}
    (h : decodeWord p op = .nopUndef op) : isUndefined p op = true := by
  have hwf := (everyWordIsRebuiltFromItsInstruction p op).1
  rwa [h] at hwf

/-- Settles O4: a matching row gives the number and the number the row, the no-op entry that no row
matches and that the entry. -/
theorem opcodeMapSelectsTheInstruction : Obligations.OpcodeMapSelectsTheInstruction := fun p op =>
  ⟨fun _ _ hr => hits_iff.symm.trans ⟨rowNumber_of_hits hr, hits_of_rowNumber hr⟩,
    Iff.trans ⟨isUndefined_of_decodeWord, decodeWord_of_isUndefined p op⟩ isUndefined_iff⟩

/-- Settles O1: fourteen fixed words, which the decoder evaluates. -/
theorem specWordsDecodeToTheirInstructions : Obligations.SpecWordsDecodeToTheirInstructions := by
  unfold Obligations.SpecWordsDecodeToTheirInstructions
  decide

end Sys2Proof.Laws

/-!
PROOFS. One whole cycle: the instruction at `pc` and the end of its cycle (O5), a value that is no
instruction (O11), the fetch fault (O6), and what every faulting cycle keeps and records (O9).
-/

namespace Sys2Proof.Machine

/-! ### The cycle around an instruction -/

namespace State

/-- A running machine ends its cycle with the decay; any other is left as it is (R126, R128). -/
theorem endCycle_eq (t : State) : t.endCycle = if t.status = .running then afterDecay t else t := by
  split
  · next hrun => exact endCycle_running hrun
  · next hstop => exact endCycle_stopped hstop

/-- The bytes at `pc` decode to the instruction that a step runs, with no byte left. -/
theorem decode_readBytes_pc (s : State) :
    decode s.params (s.readBytes s.pc.toNat 2) = .ok (decodeWord s.params s.opcode, []) := rfl

theorem rewind_advance (s : State) : s.advance.rewind = s := by
  simp [rewind, advance, setPc]

/-- A fault of step 5 is entered with the state and the `pc` from before the advance (R128). -/
theorem raise_advance (s : State) (c : FaultCause) (op : Word) :
    s.advance.raise c op = s.enterFault c (some op) := by
  rw [raise, rewind_advance]

end State

/-- An instruction that leaves a running machine stopped has entered a fault, before any effect. -/
theorem exec_stopped {i : Instr} {s u : State} (h : exec i s = .next u) (hrun : s.status = .running)
    (hstop : u.status ≠ .running) : ∃ c, u = s.raise c (encode i) := by
  obtain ⟨t, ht, hcase⟩ := exec_cases i s
  obtain rfl : t = u := Host.Outcome.next.inj (ht.symm.trans h)
  obtain ⟨c, -, hraise⟩ | ⟨-, hkeep, -⟩ := hcase
  · exact ⟨c, hraise⟩
  · exact absurd (hkeep.trans hrun) hstop

/-- A cycle that does not end running entered a fault from the state it began in: the fetch fault, or
one of step 5 with the opcode at `pc`. -/
theorem step_stopped {s t : State} (h : step s = .next t) (hstop : t.status ≠ .running) :
    (s.pc.toNat > 0xFFE ∧ ∃ c, t = s.enterFault c none) ∨
      (s.pc.toNat ≤ 0xFFE ∧ ∃ c, t = s.enterFault c (some s.opcode)) := by
  obtain ⟨hrun, ⟨hp, ht⟩ | ⟨hp, u, hu, rfl⟩⟩ := step_cases h
  · exact .inl ⟨hp, _, ht⟩
  · rw [State.endCycle_status] at hstop
    obtain ⟨c, rfl⟩ := exec_stopped hu hrun hstop
    refine .inr ⟨hp, c, ?_⟩
    rw [State.endCycle_stopped hstop, State.raise_advance,
      (Laws.everyWordIsRebuiltFromItsInstruction s.params s.opcode).2]

/-! ### The obligations of the cycle -/

/-- Settles O9: the state is the entry of a fault from `s`, by `step_stopped`. -/
theorem faultingCycleKeepsEverythingElse : Obligations.FaultingCycleKeepsEverythingElse := by
  intro s t h hstop
  obtain ⟨hp, c, rfl⟩ | ⟨hp, c, rfl⟩ := step_stopped h hstop
  · exact ⟨rfl, _, rfl, rfl, .inl ⟨hp, rfl⟩⟩
  · exact ⟨rfl, _, rfl, rfl, .inr ⟨hp, rfl⟩⟩

/-- Settles O11: the value decodes to the no-op entry, whose cycle is the advance and the decay. -/
theorem undefinedOpcodeOnlyAdvances : Obligations.UndefinedOpcodeOnlyAdvances := by
  refine ⟨fun s hready hrows => ?_, fun _ _ => rfl⟩
  have hdec : decodeWord s.params s.opcode = .nopUndef s.opcode :=
    (Laws.opcodeMapSelectsTheInstruction s.params s.opcode).2.mpr hrows
  calc step s = finishCycle (exec (.nopUndef s.opcode) s.advance) := by rw [step_ready hready, hdec]
    _ = .next s.advance.endCycle := rfl
    _ = .next (afterDecay s.advance) := by rw [State.endCycle_running (s.advance_status.trans hready.1)]

/-- Settles O5: the decoded instruction has a next state, and the end of the cycle is the decay of a
running one. -/
theorem stepRunsTheInstructionAtPc : Obligations.StepRunsTheInstructionAtPc := by
  intro s i hready hbytes
  obtain rfl : decodeWord s.params s.opcode = i := by
    simpa [State.decode_readBytes_pc] using hbytes
  obtain ⟨t, ht, -⟩ := exec_cases (decodeWord s.params s.opcode) s.advance
  have hadvanced : { s with pc := s.pc + 2 } = s.advance := rfl
  simp only [step_ready hready, hadvanced, ht, finishCycle, State.endCycle_eq]

/-- Settles O6: the lowest address above 0xFFF of the two bytes at `pc` is `pc`, or 0x1000 from
0xFFF. -/
theorem fetchOutsideMemoryFaults : Obligations.FetchOutsideMemoryFaults := by
  intro s hrun hp
  have hlow : max s.pc.toNat 0x1000 = if s.pc.toNat > 0xFFF then s.pc.toNat else s.pc.toNat + 1 := by
    split <;> omega
  rw [step_fetchFault hrun hp, hlow]
  rfl

end Sys2Proof.Machine

/-!
PROOFS. Control transfer: the register skips (O26), the two jumps (O27), and the call and the return,
each alone (O28, O29) and together (O30).
-/

namespace Sys2Proof.Machine

/-! ### What a write of `pc` and a skip leave, and where they lead -/

theorem onlyCounter_setPc (s : State) (w : Word) : OnlyCounter s (s.setPc w) :=
  ⟨rfl, fun r => s.reg_setPc r w, fun a => s.readByte_setPc a w⟩

theorem onlyCounter_skipIf (s : State) (c : Bool) : OnlyCounter s (skipIf s c) := by
  cases c
  case false => exact ⟨rfl, fun _ => rfl, fun _ => rfl⟩
  case true => exact onlyCounter_setPc s (s.pc + 2)

theorem skipIf_pc (s : State) (c : Bool) : (skipIf s c).pc = if c then s.pc + 2 else s.pc :=
  apply_ite State.pc _ _ _

theorem toNat_zext16 {n : Nat} (hn : n ≤ 16) (b : BitVec n) : (zext16 b).toNat = b.toNat :=
  BitVec.toNat_setWidth_of_le hn

/-- The target of `Bnnn` is a sum of integers: it is at most 0x10FE, so 16 bits lose nothing (R148). -/
theorem toNat_zext16_add (nnn : Addr) (b : Byte) :
    (zext16 nnn + zext16 b).toNat = nnn.toNat + b.toNat := by
  have hnnn := toNat_zext16_addr_le nnn
  have hb := toNat_zext16_byte_le b
  rw [BitVec.toNat_add_of_lt (by omega), toNat_zext16 (by decide), toNat_zext16 (by decide)]

/-! ### The slot that a push fills -/

theorem State.top_push (s : State) (w : Word) : (s.push w).top = w := by
  simp [State.top]

theorem State.push_stack_other (s : State) (w : Word) {k : Fin 16} (hk : k ≠ s.sp + 1) :
    (s.push w).stack[k] = s.stack[k] :=
  Vector.getElem_set_ne (s.sp + 1).isLt k.isLt fun e => hk (Fin.ext e.symm)

/-! ### The obligations of control transfer -/

/-- Settles O26: each skip is a `skipIf` of its condition. -/
theorem registerSkips : Obligations.RegisterSkips := by
  intro x y nn low s
  refine ⟨⟨_, rfl, onlyCounter_skipIf s _, ?_⟩, ⟨_, rfl, onlyCounter_skipIf s _, ?_⟩,
    ⟨_, rfl, onlyCounter_skipIf s _, ?_⟩, ⟨_, rfl, onlyCounter_skipIf s _, ?_⟩⟩ <;>
    simp [skipIf_pc]

/-- Settles O27: each jump writes `pc` alone, and its target fits 16 bits. -/
theorem jumpsSetTheCounter : Obligations.JumpsSetTheCounter := fun nnn s =>
  ⟨⟨_, rfl, onlyCounter_setPc s _, toNat_zext16 (by decide) nnn⟩,
    ⟨_, rfl, onlyCounter_setPc s _, toNat_zext16_add nnn (s.reg 0)⟩⟩

/-- Settles O28: below the limit a call is a push of `pc` and a jump. -/
theorem callPushesTheReturnAddress : Obligations.CallPushesTheReturnAddress := by
  intro nnn s hsp
  have hnew : (s.sp + 1 : Fin 16).val = s.sp.val + 1 := by omega
  exact ⟨_, exec_call hsp.ne nnn, ⟨rfl, fun _ => rfl, fun _ => rfl⟩, toNat_zext16 (by decide) nnn,
    hnew, s.top_push s.pc, fun _ => s.push_stack_other s.pc⟩

/-- Settles O29: above 0 a return is a jump to the top slot and a pop. -/
theorem returnPopsTheReturnAddress : Obligations.ReturnPopsTheReturnAddress := by
  intro k s hsp
  have hold : (s.sp - 1 : Fin 16).val + 1 = s.sp.val := by omega
  exact ⟨_, exec_ret hsp.ne' k, ⟨rfl, fun _ => rfl, fun _ => rfl⟩, rfl, hold, rfl⟩

/-- Settles O30: the return pops the slot and the depth that the call pushed. -/
theorem returnUndoesCall : Obligations.ReturnUndoesCall := by
  intro nnn k s hsp
  obtain ⟨t, ht, -, -, hdepth, hslot, -⟩ := callPushesTheReturnAddress nnn s hsp
  refine ⟨t, ht, fun u husp hustack => ?_⟩
  obtain ⟨w, hw, -, hpc, hpop, -⟩ := returnPopsTheReturnAddress k u (by omega)
  have htop : u.stack[u.sp] = s.pc := by simp only [husp, hustack, hslot]
  exact ⟨w, hw, hpc.trans htop, Fin.ext (by omega)⟩

end Sys2Proof.Machine

/-!
PROOFS. The register and ALU instructions: the immediates (O20), the copy and the bitwise forms (O21),
the sum, the differences and the shifts with their flag (O22, O23) and with VF as Vx (O24), and the
random byte (O25).
-/

namespace Sys2Proof.Machine

/-! ### What the register writes leave unchanged, and what is read after a flag writer -/

theorem onlyRegisters_setReg (s : State) (x : Reg) (b : Byte) :
    OnlyRegisters (· = x) s (s.setReg x b) :=
  ⟨rfl, fun r hr => (s.reg_setReg x r b).trans (if_neg hr), fun a => s.readByte_setReg a x b⟩

theorem onlyRegisters_setFlagThenReg (s : State) (x : Reg) (f : Bool) (b : Byte) :
    OnlyRegisters (fun r => r = x ∨ r = VF) s (s.setFlagThenReg x f b) := by
  refine ⟨rfl, fun r hr => ?_, fun _ => rfl⟩
  obtain ⟨hx, hf⟩ := not_or.mp hr
  rw [State.reg_setFlagThenReg, if_neg hx, if_neg hf]

/-- With VF as Vx the flag write is within the frame of the result. -/
theorem onlyRegisters_setFlagThenReg_VF (s : State) (f : Bool) (b : Byte) :
    OnlyRegisters (· = VF) s (s.setFlagThenReg VF f b) := by
  simpa only [or_self] using onlyRegisters_setFlagThenReg s VF f b

theorem State.reg_setReg_same (s : State) (x : Reg) (b : Byte) : (s.setReg x b).reg x = b :=
  (s.reg_setReg x x b).trans (if_pos rfl)

/-- The result is written last, so it stands in Vx whichever register that is (R161, D12). -/
theorem State.reg_setFlagThenReg_same (s : State) (x : Reg) (f : Bool) (b : Byte) :
    (s.setFlagThenReg x f b).reg x = b :=
  (s.setFlag f).reg_setReg_same x b

theorem State.reg_setFlagThenReg_VF (s : State) {x : Reg} (hx : x ≠ VF) (f : Bool) (b : Byte) :
    (s.setFlagThenReg x f b).reg VF = flagByte f := by
  rw [reg_setFlagThenReg, if_neg hx.symm, if_pos rfl]

/-! ### The results, the flags and the random byte -/

/-- The difference modulo 256, with the 256 added before the subtraction of `Nat` (R10). -/
theorem toNat_sub_byte (a b : Byte) : (a - b).toNat = (a.toNat + 256 - b.toNat) % 256 := by
  bv_omega

theorem toNat_shiftRight_one (a : Byte) : (a >>> 1).toNat = a.toNat / 2 := by
  rw [BitVec.toNat_ushiftRight, Nat.shiftRight_one]

theorem toNat_shiftLeft_one (a : Byte) : (a <<< 1).toNat = a.toNat * 2 % 256 := by
  rw [BitVec.toNat_shiftLeft, Nat.shiftLeft_eq]

theorem flagByte_carryOut (a b : Byte) :
    flagByte (carryOut a b) = if a.toNat + b.toNat > 255 then 1 else 0 := by
  simp only [flagByte, carryOut, decide_eq_true_eq]

theorem flagByte_exceeds (a b : Byte) :
    flagByte (exceeds a b) = if a.toNat > b.toNat then 1 else 0 := by
  simp only [flagByte, exceeds, decide_eq_true_eq]

theorem toNat_flagByte (f : Bool) : (flagByte f).toNat = f.toNat := by
  cases f <;> rfl

theorem toNat_flagByte_lowBit (a : Byte) : (flagByte (lowBit a)).toNat = a.toNat % 2 := by
  rw [toNat_flagByte, lowBit, BitVec.getLsbD, Nat.toNat_testBit, Nat.pow_zero, Nat.div_one]

/-- Bit 7 is the quotient by 128, since a byte is below 256. -/
theorem toNat_flagByte_highBit (a : Byte) : (flagByte (highBit a)).toNat = a.toNat / 128 := by
  have hquot : a.toNat / 128 < 2 := by omega
  rw [toNat_flagByte, highBit, BitVec.getLsbD, Nat.toNat_testBit]
  exact Nat.mod_eq_of_lt hquot

/-- The random byte of the cycle is the one the driver lists first (R35). -/
theorem State.random_of_inputs {s : State} {now : Inputs} {later : List Inputs}
    (h : s.inputs = now :: later) : s.random = now.rnd := by
  rw [random, input, h]

/-! ### The obligations of the register and ALU instructions -/

/-- Settles O20: each is one register write. -/
theorem loadAndAddImmediate : Obligations.LoadAndAddImmediate := by
  intro x nn s
  refine ⟨⟨_, rfl, onlyRegisters_setReg s x _, s.reg_setReg_same x nn⟩,
    ⟨_, rfl, onlyRegisters_setReg s x _, ?_⟩⟩
  rw [State.reg_setReg_same, BitVec.toNat_add]

/-- Settles O21: each is one register write, of Vy or of a bitwise combination of both. -/
theorem copyAndBitwiseForms : Obligations.CopyAndBitwiseForms := by
  intro x y s
  refine ⟨⟨_, rfl, onlyRegisters_setReg s x _, s.reg_setReg_same x _⟩,
    ⟨_, rfl, onlyRegisters_setReg s x _, fun b => ?_⟩,
    ⟨_, rfl, onlyRegisters_setReg s x _, fun b => ?_⟩,
    ⟨_, rfl, onlyRegisters_setReg s x _, fun b => ?_⟩⟩
  · rw [State.reg_setReg_same, BitVec.getLsbD_or]
  · rw [State.reg_setReg_same, BitVec.getLsbD_and]
  · rw [State.reg_setReg_same, BitVec.getLsbD_xor]

/-- Settles O22: the result is read back from Vx and, as Vx is not VF, the flag from VF. -/
theorem addAndSubtractWriteResultAndFlag : Obligations.AddAndSubtractWriteResultAndFlag := by
  intro x y s hx
  refine ⟨⟨_, rfl, onlyRegisters_setFlagThenReg s x _ _, ?_, ?_⟩,
    ⟨_, rfl, onlyRegisters_setFlagThenReg s x _ _, ?_, ?_⟩,
    ⟨_, rfl, onlyRegisters_setFlagThenReg s x _ _, ?_, ?_⟩⟩
  · rw [State.reg_setFlagThenReg_same, BitVec.toNat_add]
  · rw [State.reg_setFlagThenReg_VF s hx, flagByte_carryOut]
  · rw [State.reg_setFlagThenReg_same, toNat_sub_byte]
  · rw [State.reg_setFlagThenReg_VF s hx, flagByte_exceeds]
  · rw [State.reg_setFlagThenReg_same, toNat_sub_byte]
  · rw [State.reg_setFlagThenReg_VF s hx, flagByte_exceeds]

/-- Settles O23: the result is read back from Vx and, as Vx is not VF, the flag from VF. -/
theorem shiftsWriteResultAndFlag : Obligations.ShiftsWriteResultAndFlag := by
  intro x y s hx
  refine ⟨⟨_, rfl, onlyRegisters_setFlagThenReg s x _ _, ?_, ?_⟩,
    ⟨_, rfl, onlyRegisters_setFlagThenReg s x _ _, ?_, ?_⟩⟩
  · rw [State.reg_setFlagThenReg_same, toNat_shiftRight_one]
  · rw [State.reg_setFlagThenReg_VF s hx, toNat_flagByte_lowBit]
  · rw [State.reg_setFlagThenReg_same, toNat_shiftLeft_one]
  · rw [State.reg_setFlagThenReg_VF s hx, toNat_flagByte_highBit]

/-- Settles O24: the write of the result follows the write of the flag and replaces it. -/
theorem flagWritersWithVFAsDestination : Obligations.FlagWritersWithVFAsDestination := by
  intro y s
  refine ⟨⟨_, rfl, onlyRegisters_setFlagThenReg_VF s _ _, ?_⟩,
    ⟨_, rfl, onlyRegisters_setFlagThenReg_VF s _ _, ?_⟩,
    ⟨_, rfl, onlyRegisters_setFlagThenReg_VF s _ _, ?_⟩,
    ⟨_, rfl, onlyRegisters_setFlagThenReg_VF s _ _, ?_⟩,
    ⟨_, rfl, onlyRegisters_setFlagThenReg_VF s _ _, ?_⟩⟩ <;>
    rw [State.reg_setFlagThenReg_same]
  · exact BitVec.toNat_add _ _
  · exact toNat_sub_byte _ _
  · exact toNat_sub_byte _ _
  · exact toNat_shiftRight_one _
  · exact toNat_shiftLeft_one _

/-- Settles O25: whatever the random byte is, a bit of the conjunction is a bit of `nn`. -/
theorem randomByteIsMasked : Obligations.RandomByteIsMasked := by
  intro x nn s
  refine ⟨_, rfl, onlyRegisters_setReg s x _, fun now later h => ?_, fun b hb => ?_⟩
  · rw [State.reg_setReg_same, State.random_of_inputs h]
  · rw [State.reg_setReg_same, BitVec.getLsbD_and, Bool.and_eq_true] at hb
    exact hb.2

end Sys2Proof.Machine

/-!
PROOFS. The address register and the memory instructions: `I` alone (O31, O32), the digits of a byte
and the register range to memory (O33, O34), and the register range from memory (O35).
-/

namespace Sys2Proof.Machine

/-! ### What the writes of these instructions leave unchanged -/

theorem onlyAddressRegister_setI (s : State) (w : Word) : OnlyAddressRegister s (s.setI w) :=
  ⟨rfl, fun r => s.reg_setI r w, fun a => s.readByte_setI a w⟩

theorem onlyBytes_writeBytes (s : State) (a : Nat) (bs : List Byte) :
    OnlyBytes a bs.length s (s.writeBytes a bs) :=
  ⟨s.writeBytes_frame a bs, s.writeBytes_reg a bs, fun _ => s.readByte_writeBytes_outside bs⟩

theorem onlyRegisters_loadRange (s : State) (x : Reg) (a : Nat) :
    OnlyRegisters (· ≤ x) s (loadRange s x a) :=
  ⟨loadRange_frame s x a, fun r hr => (reg_loadRange s x r a).trans (if_neg hr), fun _ => rfl⟩

/-! ### Inside memory -/

/-- A non-empty range from `I` on ends inside the 4096 bytes exactly when no address of it is above
0xFFF (R70). -/
theorem State.inRange_iff {s : State} {count : Nat} (hc : count ≠ 0) :
    s.InRange count ↔ s.i.toNat + count ≤ Config.memSize := by
  simp only [InRange, Config.memSize]
  omega

/-- After a run of bytes is stored inside memory, each byte of the run stands at its place. -/
theorem State.readByte_writeBytes_add {s : State} (hm : s.MemoryWf) {a : Nat} {bs : List Byte}
    (ha : a + bs.length ≤ Config.memSize) {k : Nat} (hk : k < bs.length) :
    (s.writeBytes a bs).readByte (a + k) = bs[k] := by
  rw [readByte_writeBytes hm ha, dif_pos (by omega)]
  simp only [Nat.add_sub_cancel_left]

theorem exec_ldBVx {s : State} (h : s.InRange 3) (x : Reg) :
    exec (.ldBVx x) s = .next (s.writeBytes s.i.toNat (decimalDigits (s.reg x))) :=
  State.withRange_inRange h _ _ _

theorem exec_loadRegs {s : State} {x : Reg} (h : s.InRange (x.val + 1)) :
    exec (.loadRegs x) s = .next (loadRange s x s.i.toNat) :=
  State.withRange_inRange h _ _ _

/-! ### The glyph address -/

/-- The last glyph address is below 65536, for `FONT_BASE` at most 432, so nothing wraps (R192). -/
theorem toNat_glyphAddress (p : Config.Params) (b : Byte) :
    (glyphAddress p b).toNat = p.fontBase.val + 5 * b.toNat := by
  have hbase := p.fontBase.isLt
  have hb := b.isLt
  rw [glyphAddress, BitVec.toNat_ofNat]
  exact Nat.mod_eq_of_lt (by simp only [Config.glyphHeight]; omega)

/-! ### The obligations of the address register and memory -/

/-- Settles O31: one write of `I`, of a value that zero-extension keeps. -/
theorem loadAddressRegister : Obligations.LoadAddressRegister := fun nnn s =>
  ⟨_, rfl, onlyAddressRegister_setI s _, toNat_zext16 (by decide) nnn⟩

/-- Settles O32: each is one write of `I`; only the sum with Vx can wrap. -/
theorem addressRegisterArithmetic : Obligations.AddressRegisterArithmetic := by
  intro x s
  refine ⟨⟨_, rfl, onlyAddressRegister_setI s _, ?_⟩,
    ⟨_, rfl, onlyAddressRegister_setI s _, toNat_glyphAddress s.params (s.reg x)⟩⟩
  rw [State.setI_i, BitVec.toNat_add, toNat_zext16 (by decide)]

/-- Settles O33: the three digits are the bytes stored, each below 256. -/
theorem decimalDigitsAreStored : Obligations.DecimalDigitsAreStored := by
  intro x s hm h
  have hdigit (k : Nat) (hk : k < 3) :
      (s.writeBytes s.i.toNat (decimalDigits (s.reg x))).readByte (s.i.toNat + k) =
        (decimalDigits (s.reg x))[k] :=
    State.readByte_writeBytes_add hm ((State.inRange_iff three_ne_zero).mp h) hk
  refine ⟨_, exec_ldBVx h x, onlyBytes_writeBytes s _ _,
    (congrArg BitVec.toNat (hdigit 0 (by decide))).trans ?_,
    (congrArg BitVec.toNat (hdigit 1 (by decide))).trans ?_,
    (congrArg BitVec.toNat (hdigit 2 (by decide))).trans ?_⟩ <;>
    exact (BitVec.toNat_ofNat _ _).trans (Nat.mod_eq_of_lt (by omega))

/-- Settles O34: the bytes stored are the register range, as long as the frame says. -/
theorem registerRangeIsStored : Obligations.RegisterRangeIsStored := by
  intro x s hm h
  refine ⟨_, exec_storeRegs h, ?_, fun _ => readByte_writeBytes_rangeBytes hm h⟩
  rw [← length_rangeBytes s x]
  exact onlyBytes_writeBytes s _ _

/-- Settles O35: one load of the register range, read back register by register. -/
theorem registerRangeIsLoaded : Obligations.RegisterRangeIsLoaded := fun x s h =>
  ⟨_, exec_loadRegs h, onlyRegisters_loadRange s x _, fun k hk =>
    (reg_loadRange s x k _).trans (if_pos hk)⟩

end Sys2Proof.Machine

/-!
PROOFS. The display: the clear (O37), the index of a wrapped pixel (O38), what a draw does to every cell
and to VF (O39), the same draw again (O40), and the two draw modes inside the edges (O41).
-/

namespace Sys2Proof.Machine

/-! ### The cells of a draw -/

/-- The indices that `Dxyn` plots from `s`, in the order of the sprite's set pixels (R212). -/
def drawnCells (x y : Reg) (n : Nibble) (s : State) : List Nat :=
  (spritePixels 0 (s.readBytes (baseAddress s) n.toNat)).map fun q =>
    pixelIndex s.params.drawMode (s.reg x) (s.reg y) q.1 q.2

theorem drawnFrom_eq_foldl_plot (x y : Reg) (n : Nibble) (s : State) :
    drawnFrom x y n s = (drawnCells x y n s).foldl plot (s.fb, false) := rfl

/-- The pixels of the sprite at `I` are the set bits of its `n` bytes. -/
theorem mem_spritePixels_readBytes {s : State} {n r c : Nat} :
    (r, c) ∈ spritePixels 0 (s.readBytes (baseAddress s) n) ↔
      r < n ∧ c < 8 ∧ (s.readByte (s.i.toNat + r)).getLsbD (7 - c) = true := by
  simp [mem_spritePixels, State.length_readBytes, State.getElem_readBytes, baseAddress, and_left_comm]

theorem mem_drawnCells {x y : Reg} {n : Nibble} {s : State} {j : Nat} :
    j ∈ drawnCells x y n s ↔ Reaches s x y n j := by
  simp only [drawnCells, List.mem_map, Prod.exists, mem_spritePixels_readBytes, Reaches, and_assoc]
  refine exists₂_congr fun r c => and_congr_right fun _ => and_congr_right fun _ =>
    and_congr_right fun _ => ?_
  rw [eq_comm]
  cases s.params.drawMode <;> rfl

/-- No cell is plotted twice: a sprite has at most 15 rows of 8 columns (R212). -/
theorem nodup_drawnCells (x y : Reg) (n : Nibble) (s : State) : (drawnCells x y n s).Nodup := by
  have hn : n.toNat < 16 := n.isLt
  refine List.Nodup.map_on ?_ (nodup_spritePixels _ 0)
  rintro ⟨r, c⟩ hq ⟨r', c'⟩ hq' heq
  obtain ⟨hr, hc, -⟩ := mem_spritePixels_readBytes.mp hq
  obtain ⟨hr', hc', -⟩ := mem_spritePixels_readBytes.mp hq'
  obtain ⟨rfl, rfl⟩ := pixelIndex_injective _ _ _ (by omega) (by omega) hc hc' heq
  rfl

theorem fbCell_drawnFrom_ne_iff {x y : Reg} {n : Nibble} {s : State} {j : Nat} (hj : j < 2048) :
    fbCell (drawnFrom x y n s).1 j ≠ fbCell s.fb j ↔ Reaches s x y n j := by
  rw [drawnFrom_eq_foldl_plot, (foldl_plot (nodup_drawnCells x y n s) s.fb false).1 j, ← mem_drawnCells]
  by_cases hr : j ∈ drawnCells x y n s
  · simp [hr, hj]
  · simp [hr]

theorem drawnFrom_collision_iff {x y : Reg} {n : Nibble} {s : State} :
    (drawnFrom x y n s).2 = true ↔ ∃ j, j < 2048 ∧ Reaches s x y n j ∧ fbCell s.fb j = true := by
  rw [drawnFrom_eq_foldl_plot, (foldl_plot (nodup_drawnCells x y n s) s.fb false).2]
  simp only [Bool.false_eq_true, false_or, mem_drawnCells, Config.fbCells]
  exact exists_congr fun j => and_left_comm

/-! ### The instruction inside memory -/

theorem faultOf_drw_of_inRange {s : State} {n : Nibble} (h : s.InRange n.toNat) (x y : Reg) :
    faultOf (.drw x y n) s = none :=
  if_neg (by unfold State.InRange at h; omega)

theorem exec_drw {x y : Reg} {n : Nibble} {s : State} (h : faultOf (.drw x y n) s = none) :
    exec (.drw x y n) s =
      .next ((s.setFlag (drawnFrom x y n s).2).setFb (drawnFrom x y n s).1) :=
  State.withRange_of_no_rangeFault h _ _

theorem onlyScreenAndFlag_setFlag_setFb (s : State) (f : Bool) (fb : FrameBuffer) :
    OnlyScreenAndFlag s ((s.setFlag f).setFb fb) :=
  ⟨rfl, fun r hr => (s.reg_setFlag f r).trans (if_neg hr), fun _ => rfl⟩

theorem flagByte_eq_zero_or_one (f : Bool) : flagByte f = 0 ∨ flagByte f = 1 := by
  cases f
  · exact .inl rfl
  · exact .inr rfl

theorem flagByte_eq_one_iff {f : Bool} : flagByte f = 1 ↔ f = true := by
  cases f <;> decide

/-- Settles O39: the cells plotted are those the sprite reaches, no two of them the same. -/
theorem drawTogglesExactlyTheSprite : Obligations.DrawTogglesExactlyTheSprite := by
  intro x y n s h
  have hflag : ((s.setFlag (drawnFrom x y n s).2).setFb (drawnFrom x y n s).1).reg VF =
      flagByte (drawnFrom x y n s).2 := s.reg_setReg_same VF _
  refine ⟨_, exec_drw (faultOf_drw_of_inRange h x y), onlyScreenAndFlag_setFlag_setFb s _ _,
    fun _ => fbCell_drawnFrom_ne_iff, ?_, ?_⟩
  · rw [hflag]
    exact flagByte_eq_zero_or_one _
  · rw [hflag, flagByte_eq_one_iff, drawnFrom_collision_iff]

/-! ### The same draw again -/

theorem OnlyScreenAndFlag.i_eq {s t : State} (h : OnlyScreenAndFlag s t) : t.i = s.i :=
  (congrArg State.i h.1).trans rfl

theorem OnlyScreenAndFlag.params_eq {s t : State} (h : OnlyScreenAndFlag s t) :
    t.params = s.params :=
  (congrArg State.params h.1).trans rfl

/-- A draw leaves what the sprite reaches as it was, unless VF holds a coordinate. -/
theorem OnlyScreenAndFlag.reaches_iff {s t : State} (h : OnlyScreenAndFlag s t) {x y : Reg}
    (hx : x ≠ VF) (hy : y ≠ VF) {n : Nibble} {j : Nat} : Reaches t x y n j ↔ Reaches s x y n j := by
  have hi := h.i_eq
  have hp := h.params_eq
  obtain ⟨-, hreg, hbyte⟩ := h
  simp only [Reaches, hi, hp, hreg x hx, hreg y hy, hbyte]

/-- The cells below 2048 are all there is of a frame buffer (R30). -/
theorem frameBuffer_ext {f g : FrameBuffer} (h : ∀ j, j < 2048 → fbCell f j = fbCell g j) : f = g :=
  BitVec.eq_of_getLsbD_eq h

/-- Settles O40: both draws reach the same cells, so each cell is changed twice or not at all, and a
cell the second draw finds on is one that the first found off. -/
theorem drawingTwiceRestoresTheScreen : Obligations.DrawingTwiceRestoresTheScreen := by
  intro x y n s hx hy h
  obtain ⟨t, ht, hkeep, hcells, -, -⟩ := drawTogglesExactlyTheSprite x y n s h
  have h' : t.InRange n.toNat := by rwa [State.InRange, hkeep.i_eq]
  obtain ⟨u, hu, -, hcells', -, hflag'⟩ := drawTogglesExactlyTheSprite x y n t h'
  simp only [hkeep.reaches_iff hx hy] at hcells' hflag'
  refine ⟨t, u, ht, hu, frameBuffer_ext fun j hj => ?_, hflag'.trans ?_⟩
  · by_cases hr : Reaches s x y n j
    · rw [Bool.eq_not_of_ne ((hcells' j hj).mpr hr), Bool.eq_not_of_ne ((hcells j hj).mpr hr),
        Bool.not_not]
    · exact (not_not.mp (mt (hcells' j hj).mp hr)).trans (not_not.mp (mt (hcells j hj).mp hr))
  · refine exists_congr fun j => and_congr_right fun hj => and_congr_right fun hr => ?_
    rw [Bool.eq_not_of_ne ((hcells j hj).mpr hr), Bool.not_eq_true']

/-! ### The two draw modes -/

theorem pixelIndex_wrapPixel (vx vy : Byte) (r c : Nat) :
    pixelIndex .wrapPixel vx vy r c = (vy.toNat + r) % 32 * 64 + (vx.toNat + c) % 64 := rfl

/-- Settles O38: a row below 32 and a column below 64. -/
theorem wrappedPixelIsAlwaysInside : Obligations.WrappedPixelIsAlwaysInside := by
  intro vx vy r c
  refine ⟨pixelIndex_wrapPixel vx vy r c, ?_⟩
  rw [pixelIndex_wrapPixel]
  omega

/-- A pixel that crosses neither the right nor the bottom edge stands at its offset from the reduced
origin, whether or not its own coordinates are reduced (R213). -/
theorem pixelIndex_insideTheEdges (mode : DrawMode) {vx vy : Byte} {r c : Nat}
    (hcol : vx.toNat % 64 + c < 64) (hrow : vy.toNat % 32 + r < 32) :
    pixelIndex mode vx vy r c = (vy.toNat % 32 + r) * 64 + (vx.toNat % 64 + c) := by
  cases mode
  case wrapPixel =>
    rw [pixelIndex_wrapPixel]
    omega
  case wrapOrigin => rfl

/-- The state with the parameters `p`. -/
def State.withParams (p : Config.Params) (s : State) : State := { s with params := p }

section

variable {x y : Reg} {n : Nibble} {s : State}

/-- What memory reads as does not depend on the draw mode. -/
theorem State.readBytes_withDrawMode (s : State) (m : DrawMode) (a n : Nat) :
    (s.withParams { s.params with drawMode := m }).readBytes a n = s.readBytes a n := by
  induction n generalizing a with
  | zero => rfl
  | succ n ih => exact congrArg (s.readByte a :: ·) (ih (a + 1))

theorem drawnCells_withDrawMode (m : DrawMode) (hx : (s.reg x).toNat % 64 ≤ 56)
    (hy : (s.reg y).toNat % 32 + n.toNat ≤ 32) :
    drawnCells x y n (s.withParams { s.params with drawMode := m }) = drawnCells x y n s := by
  have hrows := s.readBytes_withDrawMode m (baseAddress s) n.toNat
  refine (congrArg (fun rows => (spritePixels 0 rows).map _) hrows).trans ?_
  refine List.map_congr_left fun ⟨r, c⟩ hq => ?_
  obtain ⟨hr, hc, -⟩ := mem_spritePixels_readBytes.mp hq
  have hcol : (s.reg x).toNat % 64 + c < 64 := by omega
  have hrow : (s.reg y).toNat % 32 + r < 32 := by omega
  exact (pixelIndex_insideTheEdges m hcol hrow).trans
    (pixelIndex_insideTheEdges s.params.drawMode hcol hrow).symm

theorem drawnFrom_withDrawMode (m : DrawMode) (hx : (s.reg x).toNat % 64 ≤ 56)
    (hy : (s.reg y).toNat % 32 + n.toNat ≤ 32) :
    drawnFrom x y n (s.withParams { s.params with drawMode := m }) = drawnFrom x y n s :=
  congrArg (List.foldl plot (s.fb, false)) (drawnCells_withDrawMode m hx hy)

end

/-- Settles O41: the range fault does not depend on the mode, and inside the edges neither do the cells
drawn. -/
theorem drawModesAgreeInsideTheEdges : Obligations.DrawModesAgreeInsideTheEdges := by
  intro x y n s m hx hy
  have hf' : faultOf (.drw x y n) (s.withParams { s.params with drawMode := m }) =
      faultOf (.drw x y n) s := rfl
  cases hf : faultOf (.drw x y n) s with
  | some c =>
    exact exec_eq_mapNext (f := State.withParams _) (exec_of_fault hf) (exec_of_fault (hf'.trans hf))
  | none =>
    refine exec_eq_mapNext (f := State.withParams _) (exec_drw hf) ?_
    rw [exec_drw (hf'.trans hf), drawnFrom_withDrawMode m hx hy]
    rfl

/-! ### The clear -/

/-- Settles O37: one write of the frame buffer, of all cells off. -/
theorem clearTurnsEveryCellOff : Obligations.ClearTurnsEveryCellOff := fun _ s =>
  ⟨s.setFb 0, rfl, rfl, fun r => s.reg_setFb r 0, fun a => s.readByte_setFb a 0,
    fun _ => BitVec.getLsbD_zero⟩

end Sys2Proof.Machine

/-!
PROOFS. Keys and timers: the two key skips (O42), the key wait (O43) and the timer moves (O44).
-/

namespace Sys2Proof.Machine

/-! ### The key wait, with a key pressed and without -/

/-- With a key pressed the key wait writes the number of the least one (R234). -/
theorem exec_ldVxK_pressed {k : Fin 16} {s : State} (hk : s.key k = true)
    (hleast : ∀ j, j < k → s.key j = false) (x : Reg) :
    exec (.ldVxK x) s = .next (s.setReg x (BitVec.ofNat 8 k.val)) := by
  simp only [exec, execLdVxK, keyWait, firstPressed_eq_some hk hleast]

/-- With no key pressed the key wait takes the advance back (R234). -/
theorem exec_ldVxK_noKey {s : State} (hnone : ∀ k, s.key k = false) (x : Reg) :
    exec (.ldVxK x) s = .next s.rewind := by
  simp only [exec, execLdVxK, keyWait, firstPressed_eq_none.mpr hnone]

/-! ### The end of a cycle that still runs -/

/-- After an instruction that leaves the machine running the cycle ends with the decay (R126). -/
theorem finishCycle_running {t : State} (h : t.status = .running) :
    finishCycle (.next t) = .next (afterDecay t) :=
  congrArg Host.Outcome.next (State.endCycle_running h)

/-! ### The obligations of keys and timers -/

/-- Settles O42: with a key number in Vx each instruction is a `skipIf` on that key. -/
theorem keySkips : Obligations.KeySkips := by
  intro x k s hx
  have hlt : (s.reg x).toNat < 16 := hx ▸ k.isLt
  obtain rfl : ⟨(s.reg x).toNat, hlt⟩ = k := Fin.ext hx
  refine ⟨⟨_, exec_skp hlt, onlyCounter_skipIf s _, skipIf_pc s _⟩,
    ⟨_, exec_sknp hlt, onlyCounter_skipIf s _, ?_⟩⟩
  rw [skipIf_pc]
  cases s.key ⟨(s.reg x).toNat, hlt⟩ <;> rfl

/-- Settles O43: the least key is one register write; without a key the rewind undoes the advance, so
the cycle leaves only the decay. -/
theorem keyWaitTakesTheLeastKeyOrPolls : Obligations.KeyWaitTakesTheLeastKeyOrPolls := by
  refine ⟨fun x k s hk hleast => ?_, fun x s hnone => ?_, fun x s hready hdec hnone => ?_⟩
  · have hbyte : (BitVec.ofNat 8 k.val).toNat = k.val := Nat.mod_eq_of_lt (by omega)
    exact ⟨_, exec_ldVxK_pressed hk hleast x, onlyRegisters_setReg s x _,
      (congrArg BitVec.toNat (s.reg_setReg_same x _)).trans hbyte⟩
  · exact ⟨_, exec_ldVxK_noKey hnone x, onlyCounter_setPc s (s.pc - 2), rfl⟩
  · calc step s = finishCycle (exec (.ldVxK x) s.advance) := by rw [step_ready hready, hdec]
      _ = finishCycle (.next s) := by
        rw [exec_ldVxK_noKey (s := s.advance) hnone, State.rewind_advance]
      _ = .next (afterDecay s) := finishCycle_running hready.1

/-- Settles O44: each move is one write, and the decay of the same cycle comes after it. -/
theorem timerMoves : Obligations.TimerMoves := fun x s =>
  ⟨⟨_, rfl, onlyRegisters_setReg s x s.dt, s.reg_setReg_same x s.dt, fun hrun =>
      ⟨_, finishCycle_running hrun, s.reg_setReg_same x s.dt, toNat_afterDecay_dt (s.setReg x s.dt)⟩⟩,
    ⟨_, rfl, rfl, fun hrun => ⟨_, finishCycle_running hrun, toNat_afterDecay_dt (s.setDt (s.reg x))⟩⟩,
    ⟨_, rfl, rfl, fun hrun => ⟨_, finishCycle_running hrun, toNat_afterDecay_st (s.setSt (s.reg x))⟩⟩⟩

end Sys2Proof.Machine

/-!
PROOFS. Exceptions: which instruction faults, when, and with what left behind (O10).
-/

namespace Sys2Proof.Machine

/-- Settles O10, by the cases of `faultOf`: under its fault condition an instruction raises exactly that
fault, whose state is `State.raise` (R128, D5, D6); outside it the instruction completes with the status
kept. -/
theorem instructionsFaultExactlyWhenListed : Obligations.InstructionsFaultExactlyWhenListed := by
  intro i s
  split
  next c hfault => exact exec_of_fault hfault
  next hnone =>
    obtain ⟨t, ht, hstatus, -⟩ := exec_of_no_fault hnone
    exact ⟨t, ht, hstatus⟩

end Sys2Proof.Machine

/-!
PROOFS. Initialisation and the idle state: the program load (O46) and the jump to itself (O19).
-/

namespace Sys2Proof.Machine

/-! ### The two outcomes of a program load -/

/-- A program that fits is stored from 0x200 on, and that is all (R292). -/
theorem State.loadProgram_of_le (s : State) {program : List Byte} (h : program.length ≤ 3584) :
    s.loadProgram program = s.writeBytes 0x200 program :=
  if_pos h

/-- A program that does not fit leaves the machine in the load error (R293). -/
theorem State.loadProgram_status_of_gt (s : State) {program : List Byte}
    (h : 3584 < program.length) : (s.loadProgram program).status = .loadFailed program.length := by
  rw [loadProgram, if_neg (Nat.not_le.mpr h)]

/-- Settles O46: a program that fits is one run of stored bytes, which ends inside memory; after a load
error there is no step (O8). -/
theorem programLoadCopiesOrFails : Obligations.ProgramLoadCopiesOrFails := by
  refine ⟨fun s program hm hlen => ?_, fun s program hlen => ?_⟩
  · have hfits : 0x200 + program.length ≤ Config.memSize := by
      simp only [Config.memSize]
      omega
    rw [s.loadProgram_of_le hlen]
    exact ⟨onlyBytes_writeBytes s 0x200 program, fun _ => State.readByte_writeBytes_add hm hfits⟩
  · have hfailed := s.loadProgram_status_of_gt hlen
    exact ⟨hfailed, (stoppedMachineHasNoStep _).2 _ hfailed⟩

/-! ### The jump to itself -/

/-- As a number the word of `1nnn` is 0x1000 and its target (R142). -/
theorem encode_jp (nnn : Addr) : encode (.jp nnn) = 0x1000 + zext16 nnn := by
  have hword : (encode (.jp nnn)).toNat = 0x1000 + nnn.toNat := by
    rw [encode, BitVec.toNat_append, ← Nat.shiftLeft_add_eq_or_of_lt nnn.isLt]
    rfl
  have htarget := toNat_zext16 (by decide) nnn
  bv_omega

/-- An address inside memory is the extension of its low 12 bits. -/
theorem zext16_setWidth {w : Word} (h : w.toNat ≤ 0xFFF) : zext16 (w.setWidth 12) = w := by
  refine BitVec.eq_of_toNat_eq ?_
  rw [toNat_zext16 (by decide), BitVec.toNat_setWidth, Nat.mod_eq_of_lt (by omega)]

/-- With the jump to its own address at `pc` a ready machine only lets its timers decay and takes the
inputs of the cycle, whatever they are (R142, R126). -/
theorem step_jp_self {s : State} (hready : s.Ready) (hop : s.opcode = 0x1000 + s.pc) :
    step s = .next (afterDecay s) := by
  have htarget : zext16 (s.pc.setWidth 12) = s.pc := zext16_setWidth (by have := hready.2; omega)
  have hdec : decodeWord s.params s.opcode = .jp (s.pc.setWidth 12) := by
    rw [hop, ← htarget, ← encode_jp, htarget]
    exact Laws.roundTrip (.jp _) s.params rfl
  calc step s = finishCycle (exec (.jp (s.pc.setWidth 12)) s.advance) := by
        rw [step_ready hready, hdec]
    _ = finishCycle (.next (s.advance.setPc (zext16 (s.pc.setWidth 12)))) := rfl
    _ = finishCycle (.next s) := by rw [htarget]; rfl
    _ = .next (afterDecay s) := finishCycle_running hready.1

/-- Timers that stand at 0 do not decay (R126). -/
theorem afterDecay_of_timers_zero {s : State} (hdt : s.dt = 0) (hst : s.st = 0) :
    afterDecay s = { s with inputs := s.inputs.tail, inputNo := s.inputNo + 1 } := by
  rw [afterDecay, if_pos hdt, if_pos hst, hdt, hst]

/-- Settles O19: the jump leads back to `pc`, and the timers have nothing left to decay. -/
theorem idleStateIsAFixedPoint : Obligations.IdleStateIsAFixedPoint := by
  rintro s ⟨hready, hop, hdt, hst⟩
  rw [step_jp_self hready hop, afterDecay_of_timers_zero hdt hst]

end Sys2Proof.Machine
